-- ==== Sys2Proof/Word.lean ====
section
/-! DEFINITION. The plain types of values: bytes, words, addresses in an instruction, register and key indices. -/

namespace Sys2Proof

/-- An 8-bit unsigned value (10_state.md R20; 00_scope.md R7). -/
abbrev Byte := BitVec 8

/-- A 16-bit unsigned value: `I`, `pc`, a stack slot, an instruction word (10_state.md R23, R24, R25). -/
abbrev Word := BitVec 16

/-- The 12-bit address field `nnn` (30_encoding.md R71). -/
abbrev Addr := BitVec 12

/-- A register index 0..15, the field `x` or `y` (10_state.md R20). -/
abbrev Reg := Fin 16

/-- A key index 0x0..0xF (10_state.md R30). -/
abbrev Key := Fin 16

/-- The whole keypad, bit `k` is key `k`, 1 = pressed (10_state.md R30, 45_keypad.md R185). -/
abbrev Keypad := BitVec 16

/-- A framebuffer cell as (column, row) (10_state.md R29). -/
abbrev Pixel := Nat × Nat

/-- The flag register VF, which is V[15] (10_state.md R21). -/
abbrev VF : Reg := 15

/-- A flag value as the byte 0 or 1 (10_state.md R21). -/
abbrev flagByte (b : Bool) : Byte := if b then 1 else 0

end Sys2Proof
end

