-- ==== Sys2Proof/Syntax.lean ====
section
/-! DEFINITION. The abstract syntax: one constructor per row of spec/opcode_table.json, in the table's order
(30_encoding.md R75). Operand names follow 00_scope.md R12. -/

namespace Sys2Proof

/-- The 34 instructions. `x`, `y` are register indices, `kk` a byte, `nnn` a 12-bit address, `n` a row count. -/
inductive Instr where
  /-- 00E0 `CLS` (R170). -/
  | cls
  /-- 00EE `RET` (R112). -/
  | ret
  /-- 1nnn `JP nnn` (R110). -/
  | jp (nnn : Addr)
  /-- 2nnn `CALL nnn` (R111). -/
  | call (nnn : Addr)
  /-- 3xkk `SE Vx, kk` (R113). -/
  | seImm (x : Reg) (kk : Byte)
  /-- 4xkk `SNE Vx, kk` (R114). -/
  | sneImm (x : Reg) (kk : Byte)
  /-- 5xy0 `SE Vx, Vy` (R115). -/
  | seReg (x y : Reg)
  /-- 9xy0 `SNE Vx, Vy` (R116). -/
  | sneReg (x y : Reg)
  /-- 6xkk `LD Vx, kk` (R130). -/
  | ldImm (x : Reg) (kk : Byte)
  /-- 7xkk `ADD Vx, kk` (R131). -/
  | addImm (x : Reg) (kk : Byte)
  /-- 8xy0 `LD Vx, Vy` (R132). -/
  | ldReg (x y : Reg)
  /-- 8xy1 `OR Vx, Vy` (R133). -/
  | orReg (x y : Reg)
  /-- 8xy2 `AND Vx, Vy` (R134). -/
  | andReg (x y : Reg)
  /-- 8xy3 `XOR Vx, Vy` (R135). -/
  | xorReg (x y : Reg)
  /-- 8xy4 `ADD Vx, Vy` (R136). -/
  | addReg (x y : Reg)
  /-- 8xy5 `SUB Vx, Vy` (R137). -/
  | subReg (x y : Reg)
  /-- 8xy6 `SHR Vx` (R138); `y` is encoded and not read (R76, R80). -/
  | shr (x y : Reg)
  /-- 8xy7 `SUBN Vx, Vy` (R139). -/
  | subnReg (x y : Reg)
  /-- 8xyE `SHL Vx` (R140); `y` is encoded and not read (R76, R80). -/
  | shl (x y : Reg)
  /-- Annn `LD I, nnn` (R150). -/
  | ldI (nnn : Addr)
  /-- Bnnn `JP V0, nnn` (R117). -/
  | jpV0 (nnn : Addr)
  /-- Cxkk `RND Vx, kk` (R141). -/
  | rnd (x : Reg) (kk : Byte)
  /-- Dxyn `DRW Vx, Vy, n` (R171). -/
  | drw (x y : Reg) (n : Nat)
  /-- Ex9E `SKP Vx` (R180). -/
  | skp (x : Reg)
  /-- ExA1 `SKNP Vx` (R181). -/
  | sknp (x : Reg)
  /-- Fx07 `LD Vx, DT` (R190). -/
  | ldVxDt (x : Reg)
  /-- Fx15 `LD DT, Vx` (R191). -/
  | ldDtVx (x : Reg)
  /-- Fx18 `LD ST, Vx` (R192). -/
  | ldStVx (x : Reg)
  /-- Fx1E `ADD I, Vx` (R151). -/
  | addI (x : Reg)
  /-- Fx0A `LD Vx, K` (R182). -/
  | ldVxK (x : Reg)
  /-- Fx29 `LD F, Vx` (R152). -/
  | ldF (x : Reg)
  /-- Fx33 `LD B, Vx` (R153). -/
  | ldB (x : Reg)
  /-- Fx55 `LD [I], Vx` (R154). -/
  | ldMemVx (x : Reg)
  /-- Fx65 `LD Vx, [I]` (R155). -/
  | ldVxMem (x : Reg)
deriving DecidableEq, Repr

end Sys2Proof
end

