-- ==== Sys2Proof/Decode.lean ====
section
/-! DEFINITION. The field extraction, the one opcode table, the decoder, the encoder and the assembler spelling
(30_encoding.md R70 to R84). -/

namespace Sys2Proof

/-- The fields of an instruction word (30_encoding.md R71, 40_cycle.md R92). -/
structure Fields where
  op : BitVec 4
  x : Reg
  y : Reg
  n : BitVec 4
  kk : Byte
  nnn : Addr
deriving DecidableEq, Repr

/-- A 4-bit field read as a register index (30_encoding.md R71). -/
def regOfNibble (b : BitVec 4) : Reg := ⟨b.toNat, b.isLt⟩

/-- A register index as its 4-bit field. -/
def nibbleOfReg (x : Reg) : BitVec 4 := BitVec.ofNat 4 x.val

/-- The total field extraction: every 16-bit word has these fields (30_encoding.md R71, R73). -/
def fields (w : Word) : Fields where
  op := w.extractLsb' 12 4
  x := regOfNibble (w.extractLsb' 8 4)
  y := regOfNibble (w.extractLsb' 4 4)
  n := w.extractLsb' 0 4
  kk := w.extractLsb' 0 8
  nnn := w.extractLsb' 0 12

/-- One row of the opcode table: its name in spec/opcode_table.json, its mask and match, and the instruction it reads. -/
structure Row where
  name : String
  mask : Word
  pat : Word
  build : Fields → Instr

/-- A word is a row's instruction when `(w AND mask) = match` (30_encoding.md R75). -/
def Row.selects (r : Row) (w : Word) : Bool := w &&& r.mask == r.pat

/-- Rows 1 to 10 of 30_encoding.md R75. -/
def opcodeRowsFlow : List Row :=
  [⟨"CLS", 0xFFFF, 0x00E0, fun _ => .cls⟩,
   ⟨"RET", 0xFFFF, 0x00EE, fun _ => .ret⟩,
   ⟨"JP_nnn", 0xF000, 0x1000, fun f => .jp f.nnn⟩,
   ⟨"CALL_nnn", 0xF000, 0x2000, fun f => .call f.nnn⟩,
   ⟨"SE_Vx__kk", 0xF000, 0x3000, fun f => .seImm f.x f.kk⟩,
   ⟨"SNE_Vx__kk", 0xF000, 0x4000, fun f => .sneImm f.x f.kk⟩,
   ⟨"SE_Vx__Vy", 0xF00F, 0x5000, fun f => .seReg f.x f.y⟩,
   ⟨"SNE_Vx__Vy", 0xF00F, 0x9000, fun f => .sneReg f.x f.y⟩,
   ⟨"LD_Vx__kk", 0xF000, 0x6000, fun f => .ldImm f.x f.kk⟩,
   ⟨"ADD_Vx__kk", 0xF000, 0x7000, fun f => .addImm f.x f.kk⟩]

/-- Rows 11 to 19 of 30_encoding.md R75: family 8. -/
def opcodeRowsAlu : List Row :=
  [⟨"LD_Vx__Vy", 0xF00F, 0x8000, fun f => .ldReg f.x f.y⟩,
   ⟨"OR_Vx__Vy", 0xF00F, 0x8001, fun f => .orReg f.x f.y⟩,
   ⟨"AND_Vx__Vy", 0xF00F, 0x8002, fun f => .andReg f.x f.y⟩,
   ⟨"XOR_Vx__Vy", 0xF00F, 0x8003, fun f => .xorReg f.x f.y⟩,
   ⟨"ADD_Vx__Vy", 0xF00F, 0x8004, fun f => .addReg f.x f.y⟩,
   ⟨"SUB_Vx__Vy", 0xF00F, 0x8005, fun f => .subReg f.x f.y⟩,
   ⟨"SHR_Vx", 0xF00F, 0x8006, fun f => .shr f.x f.y⟩,
   ⟨"SUBN_Vx__Vy", 0xF00F, 0x8007, fun f => .subnReg f.x f.y⟩,
   ⟨"SHL_Vx", 0xF00F, 0x800E, fun f => .shl f.x f.y⟩]

/-- Rows 20 to 34 of 30_encoding.md R75. -/
def opcodeRowsRest : List Row :=
  [⟨"LD_I__nnn", 0xF000, 0xA000, fun f => .ldI f.nnn⟩,
   ⟨"JP_V0__nnn", 0xF000, 0xB000, fun f => .jpV0 f.nnn⟩,
   ⟨"RND_Vx__kk", 0xF000, 0xC000, fun f => .rnd f.x f.kk⟩,
   ⟨"DRW_Vx__Vy__n", 0xF000, 0xD000, fun f => .drw f.x f.y f.n.toNat⟩,
   ⟨"SKP_Vx", 0xF0FF, 0xE09E, fun f => .skp f.x⟩,
   ⟨"SKNP_Vx", 0xF0FF, 0xE0A1, fun f => .sknp f.x⟩,
   ⟨"LD_Vx__DT", 0xF0FF, 0xF007, fun f => .ldVxDt f.x⟩,
   ⟨"LD_DT__Vx", 0xF0FF, 0xF015, fun f => .ldDtVx f.x⟩,
   ⟨"LD_ST__Vx", 0xF0FF, 0xF018, fun f => .ldStVx f.x⟩,
   ⟨"ADD_I__Vx", 0xF0FF, 0xF01E, fun f => .addI f.x⟩,
   ⟨"LD_Vx__K", 0xF0FF, 0xF00A, fun f => .ldVxK f.x⟩,
   ⟨"LD_F__Vx", 0xF0FF, 0xF029, fun f => .ldF f.x⟩,
   ⟨"LD_B__Vx", 0xF0FF, 0xF033, fun f => .ldB f.x⟩,
   ⟨"LD__I___Vx", 0xF0FF, 0xF055, fun f => .ldMemVx f.x⟩,
   ⟨"LD_Vx___I", 0xF0FF, 0xF065, fun f => .ldVxMem f.x⟩]

/-- The one table of the decoder, the dispatch and the mnemonics (30_encoding.md R75, R84). -/
def opcodeTable : List Row := opcodeRowsFlow ++ opcodeRowsAlu ++ opcodeRowsRest

/-- Why bytes are no instruction. -/
inductive DecodeError where
  /-- Fewer than the two bytes of a word are left (30_encoding.md R70). -/
  | truncated
  /-- The word matches no row; executing it is the no-op of 40_cycle.md R96 (30_encoding.md R77). -/
  | unrecognized (w : Word)
deriving DecidableEq, Repr

/-- The instruction a word names, or its rejection by name (30_encoding.md R75, R77; 40_cycle.md R93). -/
def decodeWord (w : Word) : Except DecodeError Instr :=
  match opcodeTable.find? (·.selects w) with
  | some r => .ok (r.build (fields w))
  | none => .error (.unrecognized w)

/-- Two bytes as a word, the first byte high (20_memory.md R52). -/
def wordOfBytes (hi lo : Byte) : Word := hi ++ lo

/-- Decoding a byte sequence: the instruction at its head and the bytes after it (30_encoding.md R70). -/
def decode : List Byte → Except DecodeError (Instr × List Byte)
  | hi :: lo :: rest =>
    match decodeWord (wordOfBytes hi lo) with
    | .ok i => .ok (i, rest)
    | .error e => .error e
  | [_] => .error .truncated
  | [] => .error .truncated

/-- Format ADDR (30_encoding.md R74). -/
def encAddr (op : BitVec 4) (nnn : Addr) : Word := op ++ nnn

/-- Format XKK (30_encoding.md R74). -/
def encXkk (op : BitVec 4) (x : Reg) (kk : Byte) : Word := op ++ nibbleOfReg x ++ kk

/-- Formats XYF and XYN: the last nibble is the function digit or the row count (30_encoding.md R74). -/
def encXyn (op : BitVec 4) (x y : Reg) (n : BitVec 4) : Word := op ++ nibbleOfReg x ++ nibbleOfReg y ++ n

/-- The word of an instruction, from the formats and the fixed bits of 30_encoding.md R74 and R75. Format XF is XKK with a
fixed function byte. -/
def encode : Instr → Word
  | .cls => 0x00E0
  | .ret => 0x00EE
  | .jp nnn => encAddr 0x1 nnn
  | .call nnn => encAddr 0x2 nnn
  | .seImm x kk => encXkk 0x3 x kk
  | .sneImm x kk => encXkk 0x4 x kk
  | .seReg x y => encXyn 0x5 x y 0x0
  | .sneReg x y => encXyn 0x9 x y 0x0
  | .ldImm x kk => encXkk 0x6 x kk
  | .addImm x kk => encXkk 0x7 x kk
  | .ldReg x y => encXyn 0x8 x y 0x0
  | .orReg x y => encXyn 0x8 x y 0x1
  | .andReg x y => encXyn 0x8 x y 0x2
  | .xorReg x y => encXyn 0x8 x y 0x3
  | .addReg x y => encXyn 0x8 x y 0x4
  | .subReg x y => encXyn 0x8 x y 0x5
  | .shr x y => encXyn 0x8 x y 0x6
  | .subnReg x y => encXyn 0x8 x y 0x7
  | .shl x y => encXyn 0x8 x y 0xE
  | .ldI nnn => encAddr 0xA nnn
  | .jpV0 nnn => encAddr 0xB nnn
  | .rnd x kk => encXkk 0xC x kk
  | .drw x y n => encXyn 0xD x y (BitVec.ofNat 4 n)
  | .skp x => encXkk 0xE x 0x9E
  | .sknp x => encXkk 0xE x 0xA1
  | .ldVxDt x => encXkk 0xF x 0x07
  | .ldDtVx x => encXkk 0xF x 0x15
  | .ldStVx x => encXkk 0xF x 0x18
  | .addI x => encXkk 0xF x 0x1E
  | .ldVxK x => encXkk 0xF x 0x0A
  | .ldF x => encXkk 0xF x 0x29
  | .ldB x => encXkk 0xF x 0x33
  | .ldMemVx x => encXkk 0xF x 0x55
  | .ldVxMem x => encXkk 0xF x 0x65

/-- The bytes of an instruction in memory order, the high byte first (20_memory.md R52). -/
def encodeBytes (i : Instr) : List Byte := [(encode i).extractLsb' 8 8, (encode i).extractLsb' 0 8]

/-- The host's reading of one table row: the word's two bytes as the hardware stores them, given to the decoder. Every
bit at or above `nbits` is 0. -/
def decodeTableWord (nbits w : Nat) : Option Instr :=
  match decode [BitVec.ofNat 8 (w % 2 ^ nbits / 256), BitVec.ofNat 8 (w % 2 ^ nbits)] with
  | .ok (i, _) => some i
  | .error _ => none

/-- One upper-case hex digit (30_encoding.md R82). -/
def hexDigit (d : BitVec 4) : Char := ("0123456789ABCDEF".toList).getD d.toNat '0'

/-- `0x` and two digits (30_encoding.md R82). -/
def asmByte (b : Byte) : List Char := ['0', 'x', hexDigit (b.extractLsb' 4 4), hexDigit (b.extractLsb' 0 4)]

/-- `0x` and three digits (30_encoding.md R82). -/
def asmAddr (a : Addr) : List Char :=
  ['0', 'x', hexDigit (a.extractLsb' 8 4), hexDigit (a.extractLsb' 4 4), hexDigit (a.extractLsb' 0 4)]

/-- `V` and one digit (30_encoding.md R82). -/
def asmReg (x : Reg) : List Char := ['V', hexDigit (nibbleOfReg x)]

/-- A mnemonic and its operands, separated by `, ` (30_encoding.md R82). -/
def asmLine (mnemonic : String) : List (List Char) → List Char
  | [] => mnemonic.toList
  | a :: rest => mnemonic.toList ++ ' ' :: a ++ rest.flatMap (fun o => ',' :: ' ' :: o)

/-- The assembler spelling of an instruction (30_encoding.md R82). -/
def asm : Instr → List Char
  | .cls => asmLine "CLS" []
  | .ret => asmLine "RET" []
  | .jp nnn => asmLine "JP" [asmAddr nnn]
  | .call nnn => asmLine "CALL" [asmAddr nnn]
  | .seImm x kk => asmLine "SE" [asmReg x, asmByte kk]
  | .sneImm x kk => asmLine "SNE" [asmReg x, asmByte kk]
  | .seReg x y => asmLine "SE" [asmReg x, asmReg y]
  | .sneReg x y => asmLine "SNE" [asmReg x, asmReg y]
  | .ldImm x kk => asmLine "LD" [asmReg x, asmByte kk]
  | .addImm x kk => asmLine "ADD" [asmReg x, asmByte kk]
  | .ldReg x y => asmLine "LD" [asmReg x, asmReg y]
  | .orReg x y => asmLine "OR" [asmReg x, asmReg y]
  | .andReg x y => asmLine "AND" [asmReg x, asmReg y]
  | .xorReg x y => asmLine "XOR" [asmReg x, asmReg y]
  | .addReg x y => asmLine "ADD" [asmReg x, asmReg y]
  | .subReg x y => asmLine "SUB" [asmReg x, asmReg y]
  | .shr x _ => asmLine "SHR" [asmReg x]
  | .subnReg x y => asmLine "SUBN" [asmReg x, asmReg y]
  | .shl x _ => asmLine "SHL" [asmReg x]
  | .ldI nnn => asmLine "LD" [['I'], asmAddr nnn]
  | .jpV0 nnn => asmLine "JP" [['V', '0'], asmAddr nnn]
  | .rnd x kk => asmLine "RND" [asmReg x, asmByte kk]
  | .drw x y n => asmLine "DRW" [asmReg x, asmReg y, ['0', 'x', hexDigit (BitVec.ofNat 4 n)]]
  | .skp x => asmLine "SKP" [asmReg x]
  | .sknp x => asmLine "SKNP" [asmReg x]
  | .ldVxDt x => asmLine "LD" [asmReg x, ['D', 'T']]
  | .ldDtVx x => asmLine "LD" [['D', 'T'], asmReg x]
  | .ldStVx x => asmLine "LD" [['S', 'T'], asmReg x]
  | .addI x => asmLine "ADD" [['I'], asmReg x]
  | .ldVxK x => asmLine "LD" [asmReg x, ['K']]
  | .ldF x => asmLine "LD" [['F'], asmReg x]
  | .ldB x => asmLine "LD" [['B'], asmReg x]
  | .ldMemVx x => asmLine "LD" ["[I]".toList, asmReg x]
  | .ldVxMem x => asmLine "LD" [asmReg x, "[I]".toList]

/-- The listing of any word: its spelling, or `DW 0xNNNN` for an unrecognized one (30_encoding.md R83). -/
def disassemble (w : Word) : List Char :=
  match decodeWord w with
  | .ok i => asm i
  | .error _ =>
    "DW 0x".toList ++ [hexDigit (w.extractLsb' 12 4), hexDigit (w.extractLsb' 8 4), hexDigit (w.extractLsb' 4 4),
      hexDigit (w.extractLsb' 0 4)]

end Sys2Proof
end

