-- ==== Sys2Proof/Config.lean ====
section
/-! DEFINITION. The constants the spec fixes, the record of an implementation's parameters (00_scope.md R5),
and the values it leaves free. -/

namespace Sys2Proof.Config

/-- `MEM_SIZE`, fixed (00_scope.md R5). -/
abbrev memSize : Nat := 4096

/-- `STACK_DEPTH`, fixed (00_scope.md R5). -/
abbrev stackDepth : Nat := 16

/-- The size of the font table: `FONT_GLYPHS` × 5 bytes, fixed (00_scope.md R5). -/
abbrev fontSize : Nat := 80

/-- The parameters of one block (00_scope.md R5). They are fixed when the block is created; no event changes them. -/
structure Params where
  /-- `LOAD_ORIGIN`: where a ROM is loaded and execution starts. -/
  loadOrigin : Nat
  /-- `FONT_BASE`: the address of glyph 0. -/
  fontBase : Nat
  /-- `FONT_DATA`: the 80 bytes of the font table. -/
  fontData : List Byte
  /-- `FB_WIDTH`. -/
  fbWidth : Nat
  /-- `FB_HEIGHT`. -/
  fbHeight : Nat
deriving DecidableEq, Repr

/-- The constraints the parameters must meet (00_scope.md R5, 92_eei_decisions.md D30, D32). -/
abbrev Params.valid (p : Params) : Prop :=
  p.fontData.length = fontSize ∧ p.fontBase + fontSize ≤ p.loadOrigin ∧ p.loadOrigin < memSize ∧
    1 ≤ p.fbWidth ∧ 1 ≤ p.fbHeight

/-- FREE VALUE (log 3): the random byte a `Step` carries when the model's list of inputs does not give one.
It has no body: no proof can know a value of it (10_state.md R42, "under no law"). -/
opaque randomByte : Nat → Byte

/-- FREE VALUE (log 13): `CYCLES_PER_TICK` less one. The spec leaves the parameter OPEN (00_scope.md R5, D19). -/
opaque cyclesPerTickPred : Nat

/-- `CYCLES_PER_TICK`, a positive integer no rule depends on; only the deterministic simulator's schedule reads it
(60_exceptions.md R212). -/
def cyclesPerTick : Nat := cyclesPerTickPred + 1

end Sys2Proof.Config
end

