-- ==== Sys2Proof/Machine/Font.lean ====
section
/-! DEFINITION. The default parameters of a block, the font table among them (00_scope.md R5, 10_state.md R33). -/

namespace Sys2Proof.Machine

/-- `FONT_DATA` by default: sixteen glyphs of five bytes, top row first (10_state.md R33, D6; log 5). -/
def defaultFont : List Byte :=
  [0xF0, 0x90, 0x90, 0x90, 0xF0,  0x20, 0x60, 0x20, 0x20, 0x70] ++
  [0xF0, 0x10, 0xF0, 0x80, 0xF0,  0xF0, 0x10, 0xF0, 0x10, 0xF0] ++
  [0x90, 0x90, 0xF0, 0x10, 0x10,  0xF0, 0x80, 0xF0, 0x10, 0xF0] ++
  [0xF0, 0x80, 0xF0, 0x90, 0xF0,  0xF0, 0x10, 0x20, 0x40, 0x40] ++
  [0xF0, 0x90, 0xF0, 0x90, 0xF0,  0xF0, 0x90, 0xF0, 0x10, 0xF0] ++
  [0xF0, 0x90, 0xF0, 0x90, 0x90,  0xE0, 0x90, 0xE0, 0x90, 0xE0] ++
  [0xF0, 0x80, 0x80, 0x80, 0xF0,  0xE0, 0x90, 0x90, 0x90, 0xE0] ++
  [0xF0, 0x80, 0xF0, 0x80, 0xF0,  0xF0, 0x80, 0xF0, 0x80, 0x80]

/-- The default value of every parameter (00_scope.md R5). -/
def defaultParams : Config.Params where
  loadOrigin := 0x200
  fontBase := 0x000
  fontData := defaultFont
  fbWidth := 64
  fbHeight := 32

end Sys2Proof.Machine
end

