-- ==== Sys2Proof/Machine/State.lean ====
section
/-! DEFINITION. The machine's state as plain data, its events, and the state right after creation
(10_state.md R20 to R45). -/

namespace Sys2Proof.Machine

/-- The host-level faults of a step. There are none: every fatal fault of the spec is entered as the spec describes, by a
NEXT state in phase `Faulted(r)` (60_exceptions.md R201, R202), so no step of this machine ends in `Outcome.fault` (log 4).
Safe: nothing is left out by it. -/
inductive Fault
deriving DecidableEq, Repr

/-- The host-level refusals of a step. -/
inductive Refusal where
  /-- Raised only by an arm of `exec` whose instruction has no meaning yet. Safe: nothing can be proved of such a step.
  No arm raises it: every instruction has its meaning. -/
  | notModelled (mnemonic : String)
deriving DecidableEq, Repr

/-- The fatal fault kinds (60_exceptions.md R200). -/
inductive FaultKind where
  /-- The fetch has no two bytes at `pc` (40_cycle.md R91). -/
  | fetchOutOfBounds
  /-- 2nnn with 16 entries on the stack (41_flow.md R111). -/
  | stackOverflow
  /-- 00EE with an empty stack (41_flow.md R112). -/
  | stackUnderflow
  /-- An address at or above `MEM_SIZE` in Dxyn, Fx33, Fx55 or Fx65 (20_memory.md R55). -/
  | memoryOutOfBounds
deriving DecidableEq, Repr

/-- A fault record; `word` is `none` when the fetch itself failed (10_state.md R39). -/
structure FaultRecord where
  kind : FaultKind
  pc : Word
  word : Option Word
deriving DecidableEq, Repr

/-- The run state of the block (10_state.md R38). -/
inductive Phase where
  /-- Created, no successful load yet. -/
  | unloaded
  /-- Fetch-decode-execute proceeds. -/
  | running
  /-- Blocked in Fx0A with destination `V[x]` (10_state.md R37). -/
  | awaitingKey (x : Reg)
  /-- Stopped by the host; final. -/
  | halted
  /-- Stopped by a fatal fault; final. -/
  | faulted (r : FaultRecord)
deriving DecidableEq, Repr

/-- The soft anomalies (60_exceptions.md R205). -/
inductive AnomalyKind where
  | unrecognizedOpcode
  | keyIndexOutOfRange
deriving DecidableEq, Repr

/-- The answers of a `Load` event (70_reset_and_hazards.md R243). -/
inductive LoadResult where
  | ok
  | loadEmpty
  | loadTooLarge
  | loadNotAllowed
deriving DecidableEq, Repr

/-- The input events (10_state.md R40). -/
inductive Event where
  /-- One cycle; `r` is the random byte of Cxkk (10_state.md R42). -/
  | step (r : Byte)
  /-- One firing of the timer driver (60_exceptions.md R210). -/
  | tick
  /-- A full keypad vector (45_keypad.md R185). -/
  | keyUpdate (k : Keypad)
  /-- The host's halt signal (60_exceptions.md R220). -/
  | halt
  /-- The ROM load (70_reset_and_hazards.md R243). -/
  | load (rom : List Byte)
deriving DecidableEq, Repr

/-- Memory as the list of the bytes that differ from the reset contents, addresses strictly rising (log 7). -/
abbrev Memory := List Host.Cell

/-- The framebuffer as the list of the pixels that are on, strictly rising by column, then row (log 8). -/
abbrev Framebuffer := List Pixel

/-- The output events (10_state.md R41). -/
inductive Output where
  /-- A copy of the framebuffer (60_exceptions.md R211). -/
  | frame (fb : Framebuffer)
  /-- A logged anomaly: its kind, the instruction's address and word, and a detail (60_exceptions.md R205). -/
  | anomaly (kind : AnomalyKind) (pc : Word) (word : Word) (detail : Option Byte)
  /-- The answer of a load (70_reset_and_hazards.md R243). -/
  | loadResult (r : LoadResult)
deriving DecidableEq, Repr

/-- The whole state (10_state.md R45), the parameters of the block, and four fields of the model's own. -/
structure State where
  /-- The block's parameters; no event changes them (00_scope.md R5; log 5). -/
  params : Config.Params
  /-- V0..VF (10_state.md R20, R21). -/
  v : Vector Byte 16
  /-- The index register (10_state.md R23). -/
  i : Word
  /-- The program counter (10_state.md R24). -/
  pc : Word
  /-- The return-address slots (10_state.md R25). -/
  stack : Vector Word 16
  /-- The number of occupied slots (10_state.md R26). -/
  sp : Fin 17
  /-- The delay timer (10_state.md R27). -/
  dt : Byte
  /-- The sound timer, an output level of the block (10_state.md R28, R44). -/
  st : Byte
  /-- The 4096 bytes (10_state.md R31). -/
  mem : Memory
  /-- The pixels (10_state.md R29). -/
  fb : Framebuffer
  /-- The committed keypad snapshot (10_state.md R30, R36). -/
  key : Keypad
  /-- The end of the loaded ROM (10_state.md R32). -/
  loadEnd : Word
  /-- The run state (10_state.md R38). -/
  phase : Phase
  /-- The model's own (log 1): the input events still to come, the next one first. -/
  inputs : List Event
  /-- The model's own (log 2): the output events so far, the oldest first. -/
  outputs : List Output
  /-- The model's own (log 3): the random input of the `Step` being executed (10_state.md R42). -/
  rnd : Byte
  /-- The model's own (log 3): how many `Step`s took their random byte from `Config.randomByte`. -/
  draws : Nat
deriving DecidableEq, Repr

/-- Creation of a block with given parameters (70_reset_and_hazards.md R240, 10_state.md R45). The font is what memory holds
where nothing is listed (10_state.md R31). -/
def State.create (p : Config.Params) : State where
  params := p
  v := Vector.replicate 16 0
  i := 0
  pc := BitVec.ofNat 16 p.loadOrigin
  stack := Vector.replicate 16 0
  sp := 0
  dt := 0
  st := 0
  mem := []
  fb := []
  key := 0
  loadEnd := BitVec.ofNat 16 p.loadOrigin
  phase := .unloaded
  inputs := []
  outputs := []
  rnd := 0
  draws := 0

/-- The machine right after reset: a new block with the default parameters (70_reset_and_hazards.md R240). -/
def State.reset : State := State.create defaultParams

/-- What one instruction, one event or one step answers. -/
abbrev Result := Host.Outcome State Fault Refusal

end Sys2Proof.Machine
end

