-- ==== Sys2Proof/Machine/Ops.lean ====
section
/-! DEFINITION. The named operations over registers, memory, framebuffer, stack, program counter and output log; entering a
fatal fault. -/

namespace Sys2Proof.Machine

/-! ### One update per field -/

/-- Read `V[x]` (00_scope.md R8). -/
def State.reg (s : State) (x : Reg) : Byte := s.v[x.val]

/-- `V[x] <- b` (00_scope.md R8). No register is hardwired (10_state.md R20). -/
def State.setReg (s : State) (x : Reg) (b : Byte) : State := { s with v := s.v.set x.val b x.isLt }

/-- `I <- a` (10_state.md R23). -/
def State.setI (s : State) (a : Word) : State := { s with i := a }

/-- `pc <- target` (00_scope.md R10). -/
def State.setPc (s : State) (a : Word) : State := { s with pc := a }

/-- Read stack slot `j` (10_state.md R25). -/
def State.slot (s : State) (j : Fin 16) : Word := s.stack[j.val]

/-- Write stack slot `j` (10_state.md R25). -/
def State.setSlot (s : State) (j : Fin 16) (a : Word) : State := { s with stack := s.stack.set j.val a j.isLt }

/-- Set the number of occupied slots (10_state.md R26). -/
def State.setSp (s : State) (n : Fin 17) : State := { s with sp := n }

/-- Set the delay timer (10_state.md R27). -/
def State.setDt (s : State) (b : Byte) : State := { s with dt := b }

/-- Set the sound timer (10_state.md R28). -/
def State.setSt (s : State) (b : Byte) : State := { s with st := b }

/-- Replace the memory's listed bytes. -/
def State.setMem (s : State) (m : Memory) : State := { s with mem := m }

/-- Replace the framebuffer (10_state.md R29). -/
def State.setFb (s : State) (fb : Framebuffer) : State := { s with fb := fb }

/-- Commit a keypad snapshot (10_state.md R30). -/
def State.setKey (s : State) (k : Keypad) : State := { s with key := k }

/-- Record the end of the loaded ROM (10_state.md R32). -/
def State.setLoadEnd (s : State) (a : Word) : State := { s with loadEnd := a }

/-- Change the run state (10_state.md R38). -/
def State.setPhase (s : State) (p : Phase) : State := { s with phase := p }

/-- Replace the input events to come (log 1). -/
def State.setInputs (s : State) (es : List Event) : State := { s with inputs := es }

/-- `emit o`: append to the output stream (00_scope.md R10, 10_state.md R41). -/
def State.emit (s : State) (o : Output) : State := { s with outputs := s.outputs ++ [o] }

/-- Latch the random input of a `Step` (10_state.md R42). -/
def State.setRnd (s : State) (r : Byte) : State := { s with rnd := r }

/-- Count the free random bytes used (log 3). -/
def State.setDraws (s : State) (n : Nat) : State := { s with draws := n }

/-! ### Memory -/

/-- What memory holds before any write: the font table, 0 elsewhere (10_state.md R31). An unlisted address reads as this. -/
def Memory.initial (p : Config.Params) (a : Nat) : Byte :=
  if p.fontBase ≤ a then p.fontData.getD (a - p.fontBase) 0 else 0

/-- The byte at an address. -/
def Memory.read (p : Config.Params) : Memory → Nat → Byte
  | [], a => Memory.initial p a
  | c :: rest, a => if c.1 = a then c.2 else Memory.read p rest a

/-- Put a cell into its place by address. -/
def Memory.insert : Memory → Nat → Byte → Memory
  | [], a, b => [(a, b)]
  | c :: rest, a, b => if a < c.1 then (a, b) :: c :: rest else c :: Memory.insert rest a b

/-- Write one byte, keeping the canonical form: a byte equal to the initial one is not listed. -/
def Memory.write (p : Config.Params) (m : Memory) (a : Nat) (b : Byte) : Memory :=
  let others := m.filter (fun c => c.1 != a)
  if b = Memory.initial p a then others else Memory.insert others a b

/-- The canonical form: addresses strictly rising and inside the address space, no entry equal to the initial byte. -/
abbrev Memory.wf (p : Config.Params) (m : Memory) : Prop :=
  m.Pairwise (fun c d => c.1 < d.1) ∧ ∀ c ∈ m, c.1 < Config.memSize ∧ c.2 ≠ Memory.initial p c.1

/-- `MemRead(a, 1)` (00_scope.md R9). The bound is checked before, by `guardAccess`. -/
def State.readByte (s : State) (a : Nat) : Byte := Memory.read s.params s.mem a

/-- `MemWrite(a, 1, b)` (00_scope.md R9). The bound is checked before, by `guardAccess`. -/
def State.storeByte (s : State) (a : Nat) (b : Byte) : State := s.setMem (Memory.write s.params s.mem a b)

/-- The `n` bytes from address `a` on, in increasing order (20_memory.md R64). -/
def State.readBytes (s : State) (a n : Nat) : List Byte := (List.range n).map (fun k => s.readByte (a + k))

/-- Store bytes from address `a` on, in increasing order (20_memory.md R64). -/
def State.storeBytes (s : State) (a : Nat) : List Byte → State
  | [] => s
  | b :: bs => (s.storeByte a b).storeBytes (a + 1) bs

/-- Whether every one of the `n` bytes from the exact address `a` on exists (20_memory.md R54, R55). -/
def inBounds (a n : Nat) : Bool := n == 0 || decide (a + n ≤ Config.memSize)

/-! ### Framebuffer -/

/-- The order in which lit pixels are listed: by column, then by row. -/
def Pixel.before (p q : Pixel) : Bool := decide (p.1 < q.1) || (p.1 == q.1 && decide (p.2 < q.2))

/-- `fb[px][py]` as a truth value (00_scope.md R8). -/
def Framebuffer.test (fb : Framebuffer) (p : Pixel) : Bool := decide (p ∈ fb)

/-- Put a pixel into its place. -/
def Framebuffer.insert : Framebuffer → Pixel → Framebuffer
  | [], p => [p]
  | q :: rest, p => if Pixel.before p q then p :: q :: rest else q :: Framebuffer.insert rest p

/-- `fb[px][py] <- on` (00_scope.md R8). -/
def Framebuffer.write (fb : Framebuffer) (p : Pixel) (on : Bool) : Framebuffer :=
  let others := fb.filter (fun q => q != p)
  if on then Framebuffer.insert others p else others

/-- The canonical form: strictly rising, every pixel inside the grid (10_state.md R29). -/
abbrev Framebuffer.wf (p : Config.Params) (fb : Framebuffer) : Prop :=
  fb.Pairwise (fun q r => Pixel.before q r = true) ∧ ∀ q ∈ fb, q.1 < p.fbWidth ∧ q.2 < p.fbHeight

/-- The framebuffer pixel at a cell of the state. -/
def State.pixel (s : State) (p : Pixel) : Bool := Framebuffer.test s.fb p

/-- One sprite bit of 1 applied: the pixel is inverted, and an on-to-off is remembered (44_display.md R171). -/
def drawPixel (acc : Framebuffer × Bool) (p : Pixel) : Framebuffer × Bool :=
  (Framebuffer.write acc.1 p (!Framebuffer.test acc.1 p), acc.2 || Framebuffer.test acc.1 p)

/-- The sprite's bits applied one after another: the new framebuffer and the collision (44_display.md R171, R174). -/
def drawPixels (fb : Framebuffer) (hits : List Pixel) : Framebuffer × Bool := hits.foldl drawPixel (fb, false)

/-! ### Registers in blocks -/

/-- V0..Vx in increasing order (43_index_memory.md R154). -/
def regsUpTo (x : Reg) : List Reg := (List.finRange 16).filter (fun k => decide (k ≤ x))

/-- `V[k] <- mem[a + k]` for the listed registers, every byte read from `s` (43_index_memory.md R155). -/
def State.loadRegs (s : State) (a : Nat) (ks : List Reg) : State :=
  ks.foldl (fun t k => t.setReg k (s.readByte (a + k.val))) s

/-! ### Program counter -/

/-- The address of the next instruction (41_flow.md R111). -/
def State.nextPc (s : State) : Word := s.pc + 2

/-- The automatic advance (40_cycle.md R94, class advance). -/
def State.advance (s : State) : State := s.setPc s.nextPc

/-- Skip the next instruction if the condition holds, else advance (40_cycle.md R94, class skip). -/
def State.skipIf (s : State) (c : Bool) : State := s.setPc (if c then s.pc + 4 else s.pc + 2)

/-! ### Fatal faults -/

/-- The numeric code of a fault kind (60_exceptions.md R200). -/
def faultCode : FaultKind → Nat
  | .fetchOutOfBounds => 1
  | .stackOverflow => 2
  | .stackUnderflow => 3
  | .memoryOutOfBounds => 4

/-- The numeric code of an anomaly (60_exceptions.md R205). -/
def anomalyCode : AnomalyKind → Nat
  | .unrecognizedOpcode => 1
  | .keyIndexOutOfRange => 2

/-- `raise kind(pc, word)`: the fault's record goes into `phase` and nothing else changes (60_exceptions.md R201, R202).
This is the one way any instruction or fetch takes a fault. There is no return from it (R203). -/
def State.raiseFault (s : State) (kind : FaultKind) (word : Option Word) : State :=
  s.setPhase (.faulted ⟨kind, s.pc, word⟩)

/-- Check the `n` bytes from address `a` on before anything is written; go on with `k`, or take `MemoryOutOfBounds` with the
instruction's own word (20_memory.md R55; log 6). -/
def State.guardAccess (s : State) (i : Instr) (a n : Nat) (k : State) : Result :=
  if inBounds a n then .next k else .next (s.raiseFault .memoryOutOfBounds (some (encode i)))

/-! ### The stack -/

/-- Push `a` when the stack is not full (41_flow.md R111). -/
def State.push? (s : State) (a : Word) : Option State :=
  if h : s.sp.val < 16 then
    some ((s.setSlot ⟨s.sp.val, h⟩ a).setSp ⟨s.sp.val + 1, Nat.succ_lt_succ h⟩)
  else none

/-- Pop the top address when the stack is not empty; the slot keeps its value (41_flow.md R112, D3). -/
def State.pop? (s : State) : Option (Word × State) :=
  if h : 0 < s.sp.val then
    some (s.slot ⟨s.sp.val - 1, Nat.sub_one_lt_of_le h (Nat.le_of_lt_succ s.sp.isLt)⟩,
      s.setSp ⟨s.sp.val - 1, Nat.lt_of_le_of_lt (Nat.sub_le _ _) s.sp.isLt⟩)
  else none

/-! ### Fetch -/

/-- The big-endian word at `pc`, or `none` when `pc + 1` is no address (40_cycle.md R91, 20_memory.md R52, R53). -/
def State.fetchWord (s : State) : Option Word :=
  if s.pc.toNat + 1 < Config.memSize then
    some (wordOfBytes (s.readByte s.pc.toNat) (s.readByte (s.pc.toNat + 1)))
  else none

/-- Store an instruction word where the next fetch reads it, ready to run: at `pc`, or at 0x200 when no word can be fetched
at `pc`; the phase is Running and the next input is a `Step` (log 10). -/
def State.placeWord (s : State) (w : Word) : State :=
  let t := if s.pc.toNat + 1 < Config.memSize then s else s.setPc 0x200
  ((t.storeBytes t.pc.toNat [w.extractLsb' 8 8, w.extractLsb' 0 8]).setPhase .running).setInputs (.step s.rnd :: s.inputs)

end Sys2Proof.Machine
end

