-- ==== Sys2Proof/Machine/Flags.lean ====
section
/-! DEFINITION. The flag computations of the ALU, all from the operand values before the instruction, and writing a result
with its flag (42_alu.md R142, R143; 10_state.md R22). -/

namespace Sys2Proof.Machine

/-- Carry of an 8-bit add: the exact sum exceeds 255 (42_alu.md R142). -/
def carry (a b : Byte) : Bool := decide (255 < a.toNat + b.toNat)

/-- Not-borrow of `a - b` (42_alu.md R142). -/
def notBorrow (a b : Byte) : Bool := decide (b.toNat ≤ a.toNat)

/-- The bit a right shift loses (42_alu.md R138). -/
def shiftOutLow (a : Byte) : Bool := a.getLsbD 0

/-- The bit a left shift loses (42_alu.md R140). -/
def shiftOutHigh (a : Byte) : Bool := a.getLsbD 7

/-- `V[x] <- result`, then `VF <- flag`: with `x = F` the flag is the final value (42_alu.md R143, 10_state.md R22). -/
def State.setFlagged (s : State) (x : Reg) (result : Byte) (flag : Bool) : State :=
  (s.setReg x result).setReg VF (flagByte flag)

end Sys2Proof.Machine
end

