-- ==== Sys2Proof/Machine/Alu.lean ====
section
/-! DEFINITION. Register loads, arithmetic, logic, shifts, random (42_alu.md). Each advances `pc` by 2. -/

namespace Sys2Proof.Machine

/-- 6xkk (42_alu.md R130). -/
def execLdImm (x : Reg) (kk : Byte) (s : State) : Result := .next (s.setReg x kk).advance

/-- 7xkk: no flag (42_alu.md R131). -/
def execAddImm (x : Reg) (kk : Byte) (s : State) : Result := .next (s.setReg x (s.reg x + kk)).advance

/-- 8xy0 (42_alu.md R132). -/
def execLdReg (x y : Reg) (s : State) : Result := .next (s.setReg x (s.reg y)).advance

/-- 8xy1: VF not written as a flag (42_alu.md R133, R144). -/
def execOrReg (x y : Reg) (s : State) : Result := .next (s.setReg x (s.reg x ||| s.reg y)).advance

/-- 8xy2 (42_alu.md R134, R144). -/
def execAndReg (x y : Reg) (s : State) : Result := .next (s.setReg x (s.reg x &&& s.reg y)).advance

/-- 8xy3 (42_alu.md R135, R144). -/
def execXorReg (x y : Reg) (s : State) : Result := .next (s.setReg x (s.reg x ^^^ s.reg y)).advance

/-- 8xy4 (42_alu.md R136). -/
def execAddReg (x y : Reg) (s : State) : Result :=
  .next (s.setFlagged x (s.reg x + s.reg y) (carry (s.reg x) (s.reg y))).advance

/-- 8xy5 (42_alu.md R137). -/
def execSubReg (x y : Reg) (s : State) : Result :=
  .next (s.setFlagged x (s.reg x - s.reg y) (notBorrow (s.reg x) (s.reg y))).advance

/-- 8xy6: shifts `V[x]`; `y` is not read (42_alu.md R138). -/
def execShr (x _y : Reg) (s : State) : Result :=
  .next (s.setFlagged x (s.reg x >>> 1) (shiftOutLow (s.reg x))).advance

/-- 8xy7 (42_alu.md R139). -/
def execSubnReg (x y : Reg) (s : State) : Result :=
  .next (s.setFlagged x (s.reg y - s.reg x) (notBorrow (s.reg y) (s.reg x))).advance

/-- 8xyE: shifts `V[x]`; `y` is not read (42_alu.md R140). -/
def execShl (x _y : Reg) (s : State) : Result :=
  .next (s.setFlagged x (s.reg x <<< 1) (shiftOutHigh (s.reg x))).advance

/-- Cxkk: the random input of this `Step`, masked (42_alu.md R141, 10_state.md R42). -/
def execRnd (x : Reg) (kk : Byte) (s : State) : Result := .next (s.setReg x (s.rnd &&& kk)).advance

end Sys2Proof.Machine
end

