-- ==== Sys2Proof/Machine/Operands.lean ====
section
/-! DEFINITION. The operand forms: zero-extended addresses, glyph addresses, decimal digits, sprite bits, keys. -/

namespace Sys2Proof.Machine

/-- `zext_16(nnn)` (30_encoding.md R72). -/
def addrOperand (nnn : Addr) : Word := nnn.setWidth 16

/-- `zext_16(nnn) + zext_16(V[0])`, not masked to 12 bits (41_flow.md R117). -/
def offsetTarget (nnn : Addr) (v0 : Byte) : Word := addrOperand nnn + v0.setWidth 16

/-- `trunc_16(I + zext_16(V[x]))` (43_index_memory.md R151). -/
def indexSum (i : Word) (b : Byte) : Word := i + b.setWidth 16

/-- `FONT_BASE + 5 * V[x]`, not masked (43_index_memory.md R152); writing it into `I` keeps 16 bits (00_scope.md R8). -/
def glyphAddress (p : Config.Params) (b : Byte) : Word := BitVec.ofNat 16 (p.fontBase + 5 * b.toNat)

/-- Hundreds, tens and ones (43_index_memory.md R153). -/
def decimalDigits (b : Byte) : List Byte :=
  [BitVec.ofNat 8 (b.toNat / 100), BitVec.ofNat 8 (b.toNat / 10 % 10), BitVec.ofNat 8 (b.toNat % 10)]

/-- The exact address of a data access through `I` (20_memory.md R54). -/
def State.indexAddress (s : State) : Nat := s.i.toNat

/-- The cells of one sprite row's bits of 1, left to right; bit 7 is the leftmost (44_display.md R171, R172). -/
def rowHits (p : Config.Params) (x0 py : Nat) (b : Byte) : List Pixel :=
  (List.range 8).filterMap (fun j => if b.getLsbD (7 - j) then some ((x0 + j) % p.fbWidth, py) else none)

/-- The cells of a sprite's bits of 1: rows top to bottom, coordinates wrapped (44_display.md R171, R172). -/
def spriteHits (p : Config.Params) (x0 y0 : Nat) : List Byte → List Pixel
  | [] => []
  | b :: rest => rowHits p x0 (y0 % p.fbHeight) b ++ spriteHits p x0 (y0 + 1) rest

/-- Whether the key `V[x]` names is pressed; an index above 15 counts as not pressed (45_keypad.md R180, R181). -/
def keyPressed (k : Keypad) (b : Byte) : Bool := if b.toNat ≤ 15 then k.getLsbD b.toNat else false

/-- Log an out-of-range key index, with the instruction's own word (45_keypad.md R180; 60_exceptions.md R205). -/
def State.noteKeyIndex (s : State) (i : Instr) (b : Byte) : State :=
  if b.toNat ≤ 15 then s else s.emit (.anomaly .keyIndexOutOfRange s.pc (encode i) (some b))

/-- The newly pressed keys of an update (45_keypad.md R185). -/
def pressEdges (old new : Keypad) : Keypad := new &&& ~~~old

/-- The lowest key of a set, if any (45_keypad.md R185). -/
def lowestKey (e : Keypad) : Option Key := (List.finRange 16).find? (fun k => e.getLsbD k.val)

end Sys2Proof.Machine
end

