-- ==== Sys2Proof/Machine/Display.lean ====
section
/-! DEFINITION. The framebuffer instructions (44_display.md). Neither emits an output event (R177). -/

namespace Sys2Proof.Machine

/-- 00E0 (44_display.md R170). -/
def execCls (s : State) : Result := .next (s.setFb []).advance

/-- Dxyn: coordinates read before any write, VF written after all pixels (44_display.md R171 to R175). -/
def execDrw (x y : Reg) (n : Nat) (s : State) : Result :=
  let drawn := drawPixels s.fb
    (spriteHits s.params (s.reg x).toNat (s.reg y).toNat (s.readBytes s.indexAddress n))
  s.guardAccess (.drw x y n) s.indexAddress n ((s.setFb drawn.1).setReg VF (flagByte drawn.2)).advance

end Sys2Proof.Machine
end

