-- ==== Sys2Proof/Machine/Flow.lean ====
section
/-! DEFINITION. Control transfer and skips (41_flow.md). -/

namespace Sys2Proof.Machine

/-- 1nnn (41_flow.md R110). -/
def execJp (nnn : Addr) (s : State) : Result := .next (s.setPc (addrOperand nnn))

/-- 2nnn (41_flow.md R111). -/
def execCall (nnn : Addr) (s : State) : Result :=
  match s.push? s.nextPc with
  | some t => .next (t.setPc (addrOperand nnn))
  | none => .next (s.raiseFault .stackOverflow (some (encode (.call nnn))))

/-- 00EE (41_flow.md R112). -/
def execRet (s : State) : Result :=
  match s.pop? with
  | some (a, t) => .next (t.setPc a)
  | none => .next (s.raiseFault .stackUnderflow (some (encode .ret)))

/-- 3xkk (41_flow.md R113). -/
def execSeImm (x : Reg) (kk : Byte) (s : State) : Result := .next (s.skipIf (s.reg x == kk))

/-- 4xkk (41_flow.md R114). -/
def execSneImm (x : Reg) (kk : Byte) (s : State) : Result := .next (s.skipIf (s.reg x != kk))

/-- 5xy0 (41_flow.md R115). -/
def execSeReg (x y : Reg) (s : State) : Result := .next (s.skipIf (s.reg x == s.reg y))

/-- 9xy0 (41_flow.md R116). -/
def execSneReg (x y : Reg) (s : State) : Result := .next (s.skipIf (s.reg x != s.reg y))

/-- Bnnn (41_flow.md R117). -/
def execJpV0 (nnn : Addr) (s : State) : Result := .next (s.setPc (offsetTarget nnn (s.reg 0)))

end Sys2Proof.Machine
end

