-- ==== Sys2Proof/Machine/Index.lean ====
section
/-! DEFINITION. The index register and memory transfers (43_index_memory.md). None of the transfers changes `I` (R158). -/

namespace Sys2Proof.Machine

/-- Annn (43_index_memory.md R150). -/
def execLdI (nnn : Addr) (s : State) : Result := .next (s.setI (addrOperand nnn)).advance

/-- Fx1E: no flag, no fault (43_index_memory.md R151). -/
def execAddI (x : Reg) (s : State) : Result := .next (s.setI (indexSum s.i (s.reg x))).advance

/-- Fx29 (43_index_memory.md R152). -/
def execLdF (x : Reg) (s : State) : Result := .next (s.setI (glyphAddress s.params (s.reg x))).advance

/-- Fx33 (43_index_memory.md R153). -/
def execLdB (x : Reg) (s : State) : Result :=
  s.guardAccess (.ldB x) s.indexAddress 3 (s.storeBytes s.indexAddress (decimalDigits (s.reg x))).advance

/-- Fx55 (43_index_memory.md R154). -/
def execLdMemVx (x : Reg) (s : State) : Result :=
  s.guardAccess (.ldMemVx x) s.indexAddress (x.val + 1)
    (s.storeBytes s.indexAddress ((regsUpTo x).map s.reg)).advance

/-- Fx65 (43_index_memory.md R155). -/
def execLdVxMem (x : Reg) (s : State) : Result :=
  s.guardAccess (.ldVxMem x) s.indexAddress (x.val + 1) (s.loadRegs s.indexAddress (regsUpTo x)).advance

end Sys2Proof.Machine
end

