-- ==== Sys2Proof/Machine/Keypad.lean ====
section
/-! DEFINITION. The keypad instructions (45_keypad.md). -/

namespace Sys2Proof.Machine

/-- Ex9E (45_keypad.md R180). -/
def execSkp (x : Reg) (s : State) : Result :=
  .next ((s.noteKeyIndex (.skp x) (s.reg x)).skipIf (keyPressed s.key (s.reg x)))

/-- ExA1 (45_keypad.md R181). -/
def execSknp (x : Reg) (s : State) : Result :=
  .next ((s.noteKeyIndex (.sknp x) (s.reg x)).skipIf (!keyPressed s.key (s.reg x)))

/-- Fx0A: only enters the wait; a later `KeyUpdate` completes it (45_keypad.md R182, R183). -/
def execLdVxK (x : Reg) (s : State) : Result := .next (s.setPhase (.awaitingKey x))

end Sys2Proof.Machine
end

