-- ==== Sys2Proof/Machine/Events.lean ====
section
/-! DEFINITION. The input events other than `Step`: the timer tick, the keypad update, the halt signal, the ROM load; and the
schedule of the deterministic simulator. -/

namespace Sys2Proof.Machine

/-- One timer one firing later: never below 0 (60_exceptions.md R210). -/
def timerAfterTick (b : Byte) : Byte := if 0 < b.toNat then b - 1 else 0

/-- `Tick` where it applies: both timers, then one frame (60_exceptions.md R210, R211). -/
def tickApplied (s : State) : State :=
  ((s.setDt (timerAfterTick s.dt)).setSt (timerAfterTick s.st)).emit (.frame s.fb)

/-- `Tick` (60_exceptions.md R210). -/
def tick (s : State) : State :=
  match s.phase with
  | .halted => s
  | .faulted _ => s
  | .unloaded => tickApplied s
  | .running => tickApplied s
  | .awaitingKey _ => tickApplied s

/-- The end of a key wait on key `k`: the register, the advance past the Fx0A, the phase (45_keypad.md R185). -/
def completeWait (x : Reg) (k : Key) (s : State) : State :=
  ((s.setReg x (BitVec.ofNat 8 k.val)).advance).setPhase .running

/-- `KeyUpdate(k)`: edges against the old snapshot first, then the commit (45_keypad.md R185; 70_reset_and_hazards.md R252). -/
def keyUpdate (k : Keypad) (s : State) : State :=
  match s.phase with
  | .halted => s
  | .faulted _ => s
  | .unloaded => s.setKey k
  | .running => s.setKey k
  | .awaitingKey x =>
    match lowestKey (pressEdges s.key k) with
    | some e => (completeWait x e s).setKey k
    | none => s.setKey k

/-- `Halt` (60_exceptions.md R220). -/
def halt (s : State) : State :=
  match s.phase with
  | .halted => s
  | .faulted _ => s
  | .unloaded => s.setPhase .halted
  | .running => s.setPhase .halted
  | .awaitingKey _ => s.setPhase .halted

/-- The answer to a load, before anything is copied (70_reset_and_hazards.md R243). -/
def loadAnswer (rom : List Byte) (s : State) : LoadResult :=
  match s.phase with
  | .unloaded =>
    if rom.length = 0 then .loadEmpty
    else if Config.memSize - s.params.loadOrigin < rom.length then .loadTooLarge
    else .ok
  | .running => .loadNotAllowed
  | .awaitingKey _ => .loadNotAllowed
  | .halted => .loadNotAllowed
  | .faulted _ => .loadNotAllowed

/-- The copy of a load that succeeds (70_reset_and_hazards.md R243). -/
def copyRom (rom : List Byte) (s : State) : State :=
  ((s.storeBytes s.params.loadOrigin rom).setLoadEnd
    (BitVec.ofNat 16 (s.params.loadOrigin + rom.length))).setPhase .running

/-- `Load(rom)` (70_reset_and_hazards.md R243, R244). -/
def load (rom : List Byte) (s : State) : State :=
  match loadAnswer rom s with
  | .ok => (copyRom rom s).emit (.loadResult .ok)
  | .loadEmpty => s.emit (.loadResult .loadEmpty)
  | .loadTooLarge => s.emit (.loadResult .loadTooLarge)
  | .loadNotAllowed => s.emit (.loadResult .loadNotAllowed)

/-- An unrecognized word: the anomaly and the advance, nothing else (40_cycle.md R96, 30_encoding.md R77). -/
def execUnrecognized (w : Word) (s : State) : State :=
  (s.emit (.anomaly .unrecognizedOpcode s.pc w none)).advance

/-- The schedule of a deterministic simulator: a `Tick` after every `perTick` `Step`s, `left` of them still to go before the
next one (60_exceptions.md R212; log 13). -/
def simulatorSchedule (perTick : Nat) : Nat → List Byte → List Event
  | _, [] => []
  | 0, r :: rs => .step r :: .tick :: simulatorSchedule perTick (perTick - 1) rs
  | left + 1, r :: rs => .step r :: simulatorSchedule perTick left rs

/-- A deterministic run's events for the given random bytes (60_exceptions.md R212). -/
def simulatorEvents (rs : List Byte) : List Event :=
  simulatorSchedule Config.cyclesPerTick (Config.cyclesPerTick - 1) rs

end Sys2Proof.Machine
end

