-- ==== Sys2Proof/Machine/Cycle.lean ====
section
/-! DEFINITION. The fetch-decode-execute cycle, the application of one input event, and which event comes next. -/

namespace Sys2Proof.Machine

/-- One fetch-decode-execute cycle of a running executor (40_cycle.md R91 to R96). Each meaning moves `pc` itself, as
R94 classes it. -/
def cycle (s : State) : Result :=
  match s.fetchWord with
  | none => .next (s.raiseFault .fetchOutOfBounds none)
  | some w =>
    match decodeWord w with
    | .ok i => exec i s
    | .error _ => .next (execUnrecognized w s)

/-- `Step(r)`: one cycle when Running, nothing in any other phase (40_cycle.md R90). -/
def stepEvent (r : Byte) (s : State) : Result :=
  match s.phase with
  | .running => cycle (s.setRnd r)
  | .unloaded => .next s
  | .awaitingKey _ => .next s
  | .halted => .next s
  | .faulted _ => .next s

/-- One input event, applied atomically (10_state.md R40). -/
def applyEvent : Event → State → Result
  | .step r, s => stepEvent r s
  | .tick, s => .next (tick s)
  | .keyUpdate k, s => .next (keyUpdate k s)
  | .halt, s => .next (halt s)
  | .load rom, s => .next (load rom s)

/-- A `Step` whose random byte is the free value (log 1, log 3). -/
def freeStep (s : State) : Result :=
  match s.phase with
  | .running => stepEvent (Config.randomByte s.draws) (s.setDraws (s.draws + 1))
  | .unloaded => .next s
  | .awaitingKey _ => .next s
  | .halted => .next s
  | .faulted _ => .next s

/-- The next input event: the first one listed, or a `Step` when none is (log 1). -/
def nextEvent (s : State) : Result :=
  match s.inputs with
  | e :: rest => applyEvent e (s.setInputs rest)
  | [] => freeStep s

end Sys2Proof.Machine
end

