-- ==== Sys2Proof/Machine/Step.lean ====
section
/-! DEFINITION. One step of the machine, and placing an instruction where the next step runs it. -/

namespace Sys2Proof.Machine

/-- One step: one input event (10_state.md R40, 40_cycle.md R97). -/
def step (s : State) : Host.Outcome State Fault Refusal := nextEvent s

/-- The state with an instruction's word stored where `step` fetches its next instruction, ready to run (log 10). Bits at or
above `nbits` are 0. -/
def State.withFetchWord (s : State) (nbits w : Nat) : State := s.placeWord (BitVec.ofNat 16 (w % 2 ^ nbits))

end Sys2Proof.Machine
end

