-- ==== Sys2Proof/Safety.lean ====
section
/-! DEFINITION. When a run has ended, what software must keep to avoid a fault, the invariant of the machine, and the words in
which statements say what is left unchanged. -/

namespace Sys2Proof.Machine

/-- A run has ended: Halted or Faulted (60_exceptions.md R231). -/
def State.ended (s : State) : Bool :=
  match s.phase with
  | .halted => true
  | .faulted _ => true
  | .unloaded => false
  | .running => false
  | .awaitingKey _ => false

/-- A failed run: Faulted (60_exceptions.md R231). -/
def State.failed (s : State) : Bool :=
  match s.phase with
  | .faulted _ => true
  | .halted => false
  | .unloaded => false
  | .running => false
  | .awaitingKey _ => false

/-- What software must keep for one instruction to raise no fault: call depth, a non-empty stack, accesses below `MEM_SIZE`
(70_reset_and_hazards.md R251). -/
def dutyOf (i : Instr) (s : State) : Prop :=
  match i with
  | .call _ => s.sp.val < 16
  | .ret => 0 < s.sp.val
  | .drw _ _ n => n = 0 ∨ s.i.toNat + n ≤ 4096
  | .ldB _ => s.i.toNat + 2 < 4096
  | .ldMemVx x => s.i.toNat + x.val < 4096
  | .ldVxMem x => s.i.toNat + x.val < 4096
  | .cls | .jp _ | .seImm _ _ | .sneImm _ _ | .seReg _ _ | .sneReg _ _ | .ldImm _ _ | .addImm _ _
  | .ldReg _ _ | .orReg _ _ | .andReg _ _ | .xorReg _ _ | .addReg _ _ | .subReg _ _ | .shr _ _ | .subnReg _ _
  | .shl _ _ | .ldI _ | .jpV0 _ | .rnd _ _ | .skp _ | .sknp _ | .ldVxDt _ | .ldDtVx _ | .ldStVx _ | .addI _
  | .ldVxK _ | .ldF _ => True

/-- The duties for the cycle at `s`: `pc` at or below `MEM_SIZE - 2`, and the duty of the instruction there
(70_reset_and_hazards.md R251). -/
def meetsDuties (s : State) : Prop :=
  s.pc.toNat ≤ 4094 ∧ ∀ w i, s.fetchWord = some w → decodeWord w = .ok i → dutyOf i s

/-- What the phase says about the rest of the state. -/
def phaseFits (s : State) : Prop :=
  match s.phase with
  | .unloaded =>
    (∀ x, s.reg x = 0) ∧ s.i = 0 ∧ s.pc = BitVec.ofNat 16 s.params.loadOrigin ∧ (∀ j, s.slot j = 0) ∧ s.sp = 0 ∧
      s.dt = 0 ∧ s.st = 0 ∧ s.mem = [] ∧ s.fb = [] ∧ s.loadEnd = BitVec.ofNat 16 s.params.loadOrigin
  | .running => s.params.loadOrigin < s.loadEnd.toNat
  | .awaitingKey x => s.params.loadOrigin < s.loadEnd.toNat ∧ s.fetchWord = some (encode (.ldVxK x))
  | .halted => True
  | .faulted r =>
    s.params.loadOrigin < s.loadEnd.toNat ∧ r.pc = s.pc ∧ r.word = s.fetchWord ∧
      (r.kind = .fetchOutOfBounds ↔ r.word = none)

/-- The invariant of the machine: it holds at creation and every step keeps it. -/
structure Inv (s : State) : Prop where
  /-- The parameters meet their constraints (00_scope.md R5). -/
  paramsValid : s.params.valid
  /-- Memory is in its canonical form (log 7). -/
  memWf : Memory.wf s.params s.mem
  /-- The framebuffer is in its canonical form (log 8). -/
  fbWf : Framebuffer.wf s.params s.fb
  /-- No `pc` value exceeds 0x10FE (10_state.md R24). -/
  pcRange : s.pc.toNat ≤ 0x10FE
  /-- No return address exceeds 0x1000 (41_flow.md R111). -/
  stackRange : ∀ j, (s.slot j).toNat ≤ 0x1000
  /-- `loadEnd` lies from `LOAD_ORIGIN` to `MEM_SIZE` (70_reset_and_hazards.md R243). -/
  loadEndRange : s.params.loadOrigin ≤ s.loadEnd.toNat ∧ s.loadEnd.toNat ≤ 4096
  /-- The phase fits the rest. -/
  phaseOk : phaseFits s

/-! ### What is left unchanged -/

/-- Every register but the listed ones is unchanged. -/
def KeepsRegs (but : List Reg) (s t : State) : Prop := ∀ r, r ∉ but → t.reg r = s.reg r

/-- The stack pointer and every slot are unchanged. -/
def KeepsStack (s t : State) : Prop := t.sp = s.sp ∧ ∀ j, t.slot j = s.slot j

/-- Both timers are unchanged. -/
def KeepsTimers (s t : State) : Prop := t.dt = s.dt ∧ t.st = s.st

/-- Every byte of memory reads as before. -/
def KeepsBytes (s t : State) : Prop := ∀ a, t.readByte a = s.readByte a

/-- Every byte outside the `n` bytes from address `a` on reads as before. -/
def KeepsBytesOutside (a n : Nat) (s t : State) : Prop := ∀ b, b < a ∨ a + n ≤ b → t.readByte b = s.readByte b

/-- Every pixel is unchanged. -/
def KeepsPixels (s t : State) : Prop := ∀ p, t.pixel p = s.pixel p

/-- The run state is unchanged and nothing is emitted. -/
def KeepsRun (s t : State) : Prop := t.phase = s.phase ∧ t.outputs = s.outputs

/-- What no instruction ever writes: the parameters, the keypad, the record of the ROM, and the model's own inputs. -/
def KeepsHost (s t : State) : Prop :=
  t.params = s.params ∧ t.key = s.key ∧ t.loadEnd = s.loadEnd ∧ t.inputs = s.inputs ∧ t.rnd = s.rnd ∧ t.draws = s.draws

/-- Only the listed registers and `pc` may have changed. -/
def OnlyRegs (but : List Reg) (s t : State) : Prop :=
  KeepsRegs but s t ∧ t.i = s.i ∧ KeepsStack s t ∧ KeepsTimers s t ∧ KeepsBytes s t ∧ KeepsPixels s t ∧ KeepsRun s t ∧
    KeepsHost s t

/-- Only `I` and `pc` may have changed; in particular VF has not. -/
def OnlyIndex (s t : State) : Prop :=
  KeepsRegs [] s t ∧ KeepsStack s t ∧ KeepsTimers s t ∧ KeepsBytes s t ∧ KeepsPixels s t ∧ KeepsRun s t ∧ KeepsHost s t

/-- Only the `n` bytes from address `a` on and `pc` may have changed. -/
def OnlyBytes (a n : Nat) (s t : State) : Prop :=
  KeepsRegs [] s t ∧ t.i = s.i ∧ KeepsStack s t ∧ KeepsTimers s t ∧ KeepsBytesOutside a n s t ∧ KeepsPixels s t ∧
    KeepsRun s t ∧ KeepsHost s t

/-- The state `t` is `s` but for the fault record its phase holds: a fault commits nothing else (60_exceptions.md R201). -/
def OnlyFaulted (r : FaultRecord) (s t : State) : Prop :=
  t.phase = .faulted r ∧ OnlyRegs [] s (t.setPhase s.phase) ∧ t.pc = s.pc ∧ t.mem = s.mem ∧ t.fb = s.fb

end Sys2Proof.Machine
end

