-- ==== Sys2Proof/Certificates/Slice0/Obligations.lean ====
section
/-! DEFINITION. The statements for the provers. Each docstring names the rule of spec/ its statement formalises, or says whose
choice it rests on. A state is read through `reg`, `slot`, `readByte` and `pixel`; the frames are the words of Safety.lean. -/

open Sys2Proof Sys2Proof.Machine

/-! ### Creation and the whole machine -/

/-- 10_state.md R45: what every piece of state is right after creation, for every choice of the parameters. The spec's own
decisions D21, D22 and D33 stand in that table. -/
def Obligations.CreationLeavesResetValues : Prop :=
  ∀ p : Config.Params, p.valid →
    let s := State.create p
    (∀ x, s.reg x = 0) ∧ s.i = 0 ∧ s.pc.toNat = p.loadOrigin ∧ (∀ j, s.slot j = 0) ∧ s.sp = 0 ∧ s.dt = 0 ∧ s.st = 0 ∧
      (∀ a, p.fontBase ≤ a → a < p.fontBase + 80 → p.fontData[a - p.fontBase]? = some (s.readByte a)) ∧
      (∀ a, a < p.fontBase ∨ p.fontBase + 80 ≤ a → s.readByte a = 0) ∧
      (∀ q, s.pixel q = false) ∧ s.key = 0 ∧ s.loadEnd.toNat = p.loadOrigin ∧ s.phase = .unloaded

/-- The default block is a block of valid parameters with the default sizes and origin (00_scope.md R5), and the invariant
holds right after creation, for every choice of valid parameters. -/
def Obligations.InvariantAtCreation : Prop :=
  (∀ p : Config.Params, p.valid → Inv (State.create p)) ∧ Inv State.reset ∧
    State.reset.pc = 0x200 ∧ State.reset.params.fontBase = 0 ∧ State.reset.params.fbWidth = 64 ∧
    State.reset.params.fbHeight = 32

/-- Every step keeps the invariant `Inv`: canonical memory and framebuffer, `pc` at most 0x10FE, return addresses at most
0x1000, `loadEnd` in range, an untouched machine while Unloaded, a waiting `pc` on its own Fx0A, a fault record that holds the
present `pc` and the word there. Derived from 10_state.md and 60_exceptions.md. -/
def Obligations.StepKeepsInvariant : Prop :=
  ∀ s t : State, Inv s → step s = .next t → Inv t

/-- No step of the machine ends in a host fault or a refusal: every event has its effect in every state
(60_exceptions.md, the spec's fault entry is a next state; log 4). -/
def Obligations.EveryStepAnswersNext : Prop := ∀ s : State, ∃ t, step s = .next t

/-! ### Fetch, decode, cycle -/

/-- When the two bytes at `pc` decode to `i`, a `Step` of a running machine is `exec i`: with the byte `r` of a listed
`Step(r)`, and with the free byte when no input is listed (40_cycle.md; logs 1 and 3 for the list of inputs). -/
def Obligations.StepRunsDecodedInstruction : Prop :=
  ∀ (s : State) (i : Instr), s.phase = .running → s.pc.toNat + 1 < 4096 →
    decode [s.readByte s.pc.toNat, s.readByte (s.pc.toNat + 1)] = .ok (i, []) →
    (∀ r rest, step (s.setInputs (.step r :: rest)) = exec i ((s.setInputs rest).setRnd r)) ∧
    (s.inputs = [] → ∃ r, step s = exec i ((s.setDraws (s.draws + 1)).setRnd r))

/-- `Step` in any phase but Running changes nothing (40_cycle.md, decisions D18, D31 and D33 of the spec), in Running it is one
cycle. -/
def Obligations.StepActsOnlyWhenRunning : Prop :=
  ∀ (s : State) (r : Byte),
    (s.phase ≠ .running → applyEvent (.step r) s = .next s) ∧
    (s.phase = .running → applyEvent (.step r) s = cycle (s.setRnd r))

/-- A fetch at 4095 or above faults: the record is (`pc`, none) and nothing else changes (40_cycle.md; decision D17 of the spec
for the missing word). -/
def Obligations.FetchOutOfBoundsFaults : Prop :=
  ∀ (s : State) (r : Byte), s.phase = .running → 4095 ≤ s.pc.toNat →
    ∃ t, applyEvent (.step r) s = .next t ∧ OnlyFaulted ⟨.fetchOutOfBounds, s.pc, none⟩ (s.setRnd r) t

/-- 20_memory.md R52, R53: the fetch is big-endian at every `pc` below 4095, even or odd. -/
def Obligations.FetchIsBigEndian : Prop :=
  ∀ s : State, s.pc.toNat + 1 < 4096 →
    ∃ w, s.fetchWord = some w ∧
      w.toNat = (s.readByte s.pc.toNat).toNat * 256 + (s.readByte (s.pc.toNat + 1)).toNat

/-- 40_cycle.md R96: an unrecognized word advances `pc` by 2 and emits its anomaly; nothing else changes. -/
def Obligations.UnrecognizedWordAdvances : Prop :=
  ∀ (s : State) (r : Byte) (w : Word), s.phase = .running → s.fetchWord = some w → (∀ i, decodeWord w ≠ .ok i) →
    ∃ t, applyEvent (.step r) s = .next t ∧ t.pc = s.pc + 2 ∧
      t.outputs = s.outputs ++ [.anomaly .unrecognizedOpcode s.pc w none] ∧ t.phase = .running ∧
      KeepsRegs [] s t ∧ t.i = s.i ∧ KeepsStack s t ∧ KeepsTimers s t ∧ KeepsBytes s t ∧ KeepsPixels s t ∧
      KeepsHost (s.setRnd r) t

/-- The unrecognized words are exactly the six spaces the spec lists (30_encoding.md section 4; decision D4 of the spec). -/
def Obligations.UnrecognizedSpaceIsExactlyListed : Prop :=
  ∀ w : Word, (∀ i, decodeWord w ≠ .ok i) ↔
    (w.toNat / 4096 = 0 ∧ w.toNat ≠ 0x00E0 ∧ w.toNat ≠ 0x00EE) ∨
    (w.toNat / 4096 = 5 ∧ w.toNat % 16 ≠ 0) ∨
    (w.toNat / 4096 = 8 ∧ 8 ≤ w.toNat % 16 ∧ w.toNat % 16 ≠ 14) ∨
    (w.toNat / 4096 = 9 ∧ w.toNat % 16 ≠ 0) ∨
    (w.toNat / 4096 = 14 ∧ w.toNat % 256 ∉ [0x9E, 0xA1]) ∨
    (w.toNat / 4096 = 15 ∧ w.toNat % 256 ∉ [0x07, 0x0A, 0x15, 0x18, 0x1E, 0x29, 0x33, 0x55, 0x65])

/-- 30_encoding.md R71, R75: the table's rows have the spec's match and mask values; a word with a row's fixed digits is that
row's instruction, its operands read at the places R71 gives (`x` bits 11..8, `y` bits 7..4, `n` bits 3..0, `kk` the low 8 bits,
`nnn` the low 12), all written as arithmetic on the word's number; and every decoded word is selected by a row. -/
def Obligations.DecoderFollowsOpcodeMap : Prop :=
  opcodeTable.map (fun r => (r.pat.toNat, r.mask.toNat)) =
    [(0x00E0, 0xFFFF), (0x00EE, 0xFFFF), (0x1000, 0xF000), (0x2000, 0xF000), (0x3000, 0xF000), (0x4000, 0xF000),
     (0x5000, 0xF00F), (0x9000, 0xF00F), (0x6000, 0xF000), (0x7000, 0xF000), (0x8000, 0xF00F), (0x8001, 0xF00F)] ++
    [(0x8002, 0xF00F), (0x8003, 0xF00F), (0x8004, 0xF00F), (0x8005, 0xF00F), (0x8006, 0xF00F), (0x8007, 0xF00F),
     (0x800E, 0xF00F), (0xA000, 0xF000), (0xB000, 0xF000), (0xC000, 0xF000), (0xD000, 0xF000), (0xE09E, 0xF0FF)] ++
    [(0xE0A1, 0xF0FF), (0xF007, 0xF0FF), (0xF015, 0xF0FF), (0xF018, 0xF0FF), (0xF01E, 0xF0FF), (0xF00A, 0xF0FF),
     (0xF029, 0xF0FF), (0xF033, 0xF0FF), (0xF055, 0xF0FF), (0xF065, 0xF0FF)] ∧
  (∀ (w : Word) (i : Instr), decodeWord w = .ok i → ∃ r ∈ opcodeTable, w &&& r.mask = r.pat ∧ i = r.build (fields w)) ∧
  decodeWord 0x00E0 = .ok .cls ∧ decodeWord 0x00EE = .ok .ret ∧
  ∀ w : Word,
    let x : Reg := Fin.ofNat 16 (w.toNat / 256)
    let y : Reg := Fin.ofNat 16 (w.toNat / 16)
    let kk : Byte := BitVec.ofNat 8 w.toNat
    let nnn : Addr := BitVec.ofNat 12 w.toNat
    (w.toNat / 4096 = 1 → decodeWord w = .ok (.jp nnn)) ∧ (w.toNat / 4096 = 2 → decodeWord w = .ok (.call nnn)) ∧
    (w.toNat / 4096 = 3 → decodeWord w = .ok (.seImm x kk)) ∧ (w.toNat / 4096 = 4 → decodeWord w = .ok (.sneImm x kk)) ∧
    (w.toNat / 4096 = 5 → w.toNat % 16 = 0 → decodeWord w = .ok (.seReg x y)) ∧
    (w.toNat / 4096 = 9 → w.toNat % 16 = 0 → decodeWord w = .ok (.sneReg x y)) ∧
    (w.toNat / 4096 = 6 → decodeWord w = .ok (.ldImm x kk)) ∧ (w.toNat / 4096 = 7 → decodeWord w = .ok (.addImm x kk)) ∧
    (w.toNat / 4096 = 8 →
      (w.toNat % 16 = 0 → decodeWord w = .ok (.ldReg x y)) ∧ (w.toNat % 16 = 1 → decodeWord w = .ok (.orReg x y)) ∧
      (w.toNat % 16 = 2 → decodeWord w = .ok (.andReg x y)) ∧ (w.toNat % 16 = 3 → decodeWord w = .ok (.xorReg x y)) ∧
      (w.toNat % 16 = 4 → decodeWord w = .ok (.addReg x y)) ∧ (w.toNat % 16 = 5 → decodeWord w = .ok (.subReg x y)) ∧
      (w.toNat % 16 = 6 → decodeWord w = .ok (.shr x y)) ∧ (w.toNat % 16 = 7 → decodeWord w = .ok (.subnReg x y)) ∧
      (w.toNat % 16 = 14 → decodeWord w = .ok (.shl x y))) ∧
    (w.toNat / 4096 = 10 → decodeWord w = .ok (.ldI nnn)) ∧ (w.toNat / 4096 = 11 → decodeWord w = .ok (.jpV0 nnn)) ∧
    (w.toNat / 4096 = 12 → decodeWord w = .ok (.rnd x kk)) ∧
    (w.toNat / 4096 = 13 → decodeWord w = .ok (.drw x y (w.toNat % 16))) ∧
    (w.toNat / 4096 = 14 →
      (w.toNat % 256 = 0x9E → decodeWord w = .ok (.skp x)) ∧ (w.toNat % 256 = 0xA1 → decodeWord w = .ok (.sknp x))) ∧
    (w.toNat / 4096 = 15 →
      (w.toNat % 256 = 0x07 → decodeWord w = .ok (.ldVxDt x)) ∧ (w.toNat % 256 = 0x15 → decodeWord w = .ok (.ldDtVx x)) ∧
      (w.toNat % 256 = 0x18 → decodeWord w = .ok (.ldStVx x)) ∧ (w.toNat % 256 = 0x1E → decodeWord w = .ok (.addI x)) ∧
      (w.toNat % 256 = 0x0A → decodeWord w = .ok (.ldVxK x)) ∧ (w.toNat % 256 = 0x29 → decodeWord w = .ok (.ldF x)) ∧
      (w.toNat % 256 = 0x33 → decodeWord w = .ok (.ldB x)) ∧ (w.toNat % 256 = 0x55 → decodeWord w = .ok (.ldMemVx x)) ∧
      (w.toNat % 256 = 0x65 → decodeWord w = .ok (.ldVxMem x)))

/-- Decoding the word of any well-formed instruction gives the instruction back, with every operand. -/
def Obligations.DecodeOfEncodeIsIdentity : Prop :=
  ∀ i : Instr, i.wellFormed = true → decodeWord (encode i) = .ok i ∧ decode (encodeBytes i) = .ok (i, [])

/-- Every decoded word is the word of its instruction, which is well-formed: so the word a fault record or an anomaly holds is
the word fetched (log 6). -/
def Obligations.EncodeOfDecodeIsIdentity : Prop :=
  ∀ (w : Word) (i : Instr), decodeWord w = .ok i → encode i = w ∧ i.wellFormed = true

/-- A few words written out from the encodings of the instruction rules decode to the instructions they stand for. -/
def Obligations.SampleWordsDecode : Prop :=
  decodeWord 0x1234 = .ok (.jp 0x234) ∧ decodeWord 0x00EE = .ok .ret ∧ decodeWord 0x9120 = .ok (.sneReg 1 2) ∧
  decodeWord 0x8124 = .ok (.addReg 1 2) ∧ decodeWord 0xC30F = .ok (.rnd 3 0x0F) ∧ decodeWord 0xF255 = .ok (.ldMemVx 2) ∧
  decodeWord 0xD01F = .ok (.drw 0 1 15) ∧ decodeWord 0xE5A1 = .ok (.sknp 5) ∧ decodeWord 0xF30A = .ok (.ldVxK 3) ∧
  decodeWord 0xF018 = .ok (.ldStVx 0) ∧ decodeWord 0xF308 = .error (.unrecognized 0xF308)

/-! ### Control flow -/

/-- 41_flow.md R110: `JP nnn` sets `pc` to the zero-extended address and changes nothing else. -/
def Obligations.JumpSetsPc : Prop :=
  ∀ (nnn : Addr) (s : State), ∃ t, exec (.jp nnn) s = .next t ∧ t.pc.toNat = nnn.toNat ∧ OnlyRegs [] s t

/-- `JP V0, nnn` sets `pc` to the exact sum of the address and V0, not masked, for every `nnn` (41_flow.md; decision D15 of the
spec). -/
def Obligations.JumpOffsetSetsPc : Prop :=
  ∀ (nnn : Addr) (s : State), ∃ t, exec (.jpV0 nnn) s = .next t ∧
    t.pc.toNat = nnn.toNat + (s.reg 0).toNat ∧ OnlyRegs [] s t

/-- `CALL nnn` with room on the stack: the address of the next instruction goes into slot `sp`, `sp` counts one more, `pc` is
the address (41_flow.md; decision D2 of the spec for the count form). -/
def Obligations.CallPushesReturnAddress : Prop :=
  ∀ (nnn : Addr) (s : State), s.sp.val < 16 →
    ∃ t, exec (.call nnn) s = .next t ∧ t.pc.toNat = nnn.toNat ∧ t.sp.val = s.sp.val + 1 ∧
      (∀ j : Fin 16, t.slot j = if j.val = s.sp.val then s.pc + 2 else s.slot j) ∧
      KeepsRegs [] s t ∧ t.i = s.i ∧ KeepsTimers s t ∧ KeepsBytes s t ∧ KeepsPixels s t ∧ KeepsRun s t ∧ KeepsHost s t

/-- `RET` with an entry on the stack: `pc` is the top entry, `sp` counts one less, and no slot changes, the one read included
(41_flow.md; decisions D2 and D3 of the spec). -/
def Obligations.ReturnPopsAddress : Prop :=
  ∀ s : State, 0 < s.sp.val →
    ∃ t, exec .ret s = .next t ∧ (∀ j : Fin 16, j.val + 1 = s.sp.val → t.pc = s.slot j) ∧ t.sp.val + 1 = s.sp.val ∧
      (∀ j : Fin 16, t.slot j = s.slot j) ∧
      KeepsRegs [] s t ∧ t.i = s.i ∧ KeepsTimers s t ∧ KeepsBytes s t ∧ KeepsPixels s t ∧ KeepsRun s t ∧ KeepsHost s t

/-- The two stack faults and nothing else written: `CALL` with 16 entries, `RET` with none (60_exceptions.md R200, R201 for these
two kinds). The words are the instructions' own. -/
def Obligations.StackFaultsAreTaken : Prop :=
  (∀ (nnn : Addr) (s : State), s.sp.val = 16 → ∃ t, exec (.call nnn) s = .next t ∧
    OnlyFaulted ⟨.stackOverflow, s.pc, some (BitVec.ofNat 16 (0x2000 + nnn.toNat))⟩ s t) ∧
  (∀ s : State, s.sp.val = 0 → ∃ t, exec .ret s = .next t ∧
    OnlyFaulted ⟨.stackUnderflow, s.pc, some 0x00EE⟩ s t)

/-- A call with room, then a return: `pc` is the address after the call and the stack is as deep as before
(41_flow.md section on `CALL nnn`, the source's stack round-trip property). -/
def Obligations.CallThenReturnRoundTrip : Prop :=
  ∀ (nnn : Addr) (s : State), s.sp.val < 16 →
    ∃ t u, exec (.call nnn) s = .next t ∧ exec .ret t = .next u ∧ u.pc = s.pc + 2 ∧ u.sp = s.sp ∧
      (∀ j : Fin 16, j.val < s.sp.val → u.slot j = s.slot j) ∧ KeepsRegs [] s u ∧ KeepsRun s u

/-- 41_flow.md R113 to R116: the four skips add 4 to `pc` if their condition holds and 2 if not, and change nothing else. -/
def Obligations.SkipsMovePc : Prop :=
  ∀ (x y : Reg) (kk : Byte) (s : State),
    (∃ t, exec (.seImm x kk) s = .next t ∧ t.pc = (if s.reg x = kk then s.pc + 4 else s.pc + 2) ∧ OnlyRegs [] s t) ∧
    (∃ t, exec (.sneImm x kk) s = .next t ∧ t.pc = (if s.reg x ≠ kk then s.pc + 4 else s.pc + 2) ∧ OnlyRegs [] s t) ∧
    (∃ t, exec (.seReg x y) s = .next t ∧ t.pc = (if s.reg x = s.reg y then s.pc + 4 else s.pc + 2) ∧ OnlyRegs [] s t) ∧
    (∃ t, exec (.sneReg x y) s = .next t ∧ t.pc = (if s.reg x ≠ s.reg y then s.pc + 4 else s.pc + 2) ∧ OnlyRegs [] s t)

/-! ### ALU -/

/-- 42_alu.md R130, R132: `LD Vx, kk` and `LD Vx, Vy`. -/
def Obligations.RegisterLoadsCopy : Prop :=
  ∀ (x y : Reg) (kk : Byte) (s : State),
    (∃ t, exec (.ldImm x kk) s = .next t ∧ t.reg x = kk ∧ t.pc = s.pc + 2 ∧ OnlyRegs [x] s t) ∧
    (∃ t, exec (.ldReg x y) s = .next t ∧ t.reg x = s.reg y ∧ t.pc = s.pc + 2 ∧ OnlyRegs [x] s t)

/-- 42_alu.md R131: `ADD Vx, kk` wraps modulo 256 and records no carry. -/
def Obligations.AddImmediateWraps : Prop :=
  ∀ (x : Reg) (kk : Byte) (s : State), ∃ t, exec (.addImm x kk) s = .next t ∧
    (t.reg x).toNat = ((s.reg x).toNat + kk.toNat) % 256 ∧ t.pc = s.pc + 2 ∧ OnlyRegs [x] s t

/-- `OR`, `AND`, `XOR` bit by bit; VF is not written unless it is the destination (42_alu.md; decision D11 of the spec). -/
def Obligations.LogicIsBitwise : Prop :=
  ∀ (x y : Reg) (s : State),
    (∃ t, exec (.orReg x y) s = .next t ∧
      (∀ k, (t.reg x).getLsbD k = ((s.reg x).getLsbD k || (s.reg y).getLsbD k)) ∧ t.pc = s.pc + 2 ∧ OnlyRegs [x] s t) ∧
    (∃ t, exec (.andReg x y) s = .next t ∧
      (∀ k, (t.reg x).getLsbD k = ((s.reg x).getLsbD k && (s.reg y).getLsbD k)) ∧ t.pc = s.pc + 2 ∧ OnlyRegs [x] s t) ∧
    (∃ t, exec (.xorReg x y) s = .next t ∧
      (∀ k, (t.reg x).getLsbD k = ((s.reg x).getLsbD k ^^ (s.reg y).getLsbD k)) ∧ t.pc = s.pc + 2 ∧ OnlyRegs [x] s t)

/-- 42_alu.md R136, R143: `ADD Vx, Vy` gives the low 8 bits of the exact sum, VF is the carry, and with `x = F` VF is the
carry. -/
def Obligations.AddSetsCarry : Prop :=
  ∀ (x y : Reg) (s : State), ∃ t, exec (.addReg x y) s = .next t ∧
    (x ≠ VF → (t.reg x).toNat = ((s.reg x).toNat + (s.reg y).toNat) % 256) ∧
    (t.reg VF).toNat = (if 255 < (s.reg x).toNat + (s.reg y).toNat then 1 else 0) ∧
    t.pc = s.pc + 2 ∧ OnlyRegs [x, VF] s t

/-- 42_alu.md R137, R139: `SUB Vx, Vy` and `SUBN Vx, Vy` wrap modulo 256 and set VF to 1 exactly when no borrow occurs; with
`x = F` VF is the flag. -/
def Obligations.SubtractsSetNotBorrow : Prop :=
  ∀ (x y : Reg) (s : State),
    (∃ t, exec (.subReg x y) s = .next t ∧
      (x ≠ VF → (t.reg x).toNat = ((s.reg x).toNat + 256 - (s.reg y).toNat) % 256) ∧
      (t.reg VF).toNat = (if (s.reg y).toNat ≤ (s.reg x).toNat then 1 else 0) ∧ t.pc = s.pc + 2 ∧ OnlyRegs [x, VF] s t) ∧
    (∃ t, exec (.subnReg x y) s = .next t ∧
      (x ≠ VF → (t.reg x).toNat = ((s.reg y).toNat + 256 - (s.reg x).toNat) % 256) ∧
      (t.reg VF).toNat = (if (s.reg x).toNat ≤ (s.reg y).toNat then 1 else 0) ∧ t.pc = s.pc + 2 ∧ OnlyRegs [x, VF] s t)

/-- 42_alu.md R138, R140: `SHR Vx` and `SHL Vx` shift `V[x]` by one for every value of the unread field `y`; VF is the bit shifted
out; with `x = F` VF is that bit. -/
def Obligations.ShiftsSetShiftedOutBit : Prop :=
  ∀ (x y : Reg) (s : State),
    (∃ t, exec (.shr x y) s = .next t ∧ (x ≠ VF → (t.reg x).toNat = (s.reg x).toNat / 2) ∧
      (t.reg VF).toNat = (s.reg x).toNat % 2 ∧ t.pc = s.pc + 2 ∧ OnlyRegs [x, VF] s t) ∧
    (∃ t, exec (.shl x y) s = .next t ∧ (x ≠ VF → (t.reg x).toNat = 2 * (s.reg x).toNat % 256) ∧
      (t.reg VF).toNat = (s.reg x).toNat / 128 ∧ t.pc = s.pc + 2 ∧ OnlyRegs [x, VF] s t)

/-- `RND Vx, kk` gives the masked random input, for every input `r` (42_alu.md; the input is free, decision D23 of the spec). -/
def Obligations.RandomIsMaskedInput : Prop :=
  ∀ (x : Reg) (kk r : Byte) (s : State), ∃ t, exec (.rnd x kk) (s.setRnd r) = .next t ∧
    (∀ k, (t.reg x).getLsbD k = (r.getLsbD k && kk.getLsbD k)) ∧ t.pc = s.pc + 2 ∧ OnlyRegs [x] (s.setRnd r) t

/-! ### Index register and memory transfers -/

/-- 43_index_memory.md R150: `LD I, nnn`. -/
def Obligations.IndexLoadSetsI : Prop :=
  ∀ (nnn : Addr) (s : State), ∃ t, exec (.ldI nnn) s = .next t ∧ t.i.toNat = nnn.toNat ∧ t.pc = s.pc + 2 ∧ OnlyIndex s t

/-- `ADD I, Vx` wraps modulo 2^16, sets no flag and never faults; `LD F, Vx` gives the exact glyph address for every value of
`V[x]`, not masked, in a block of valid parameters (43_index_memory.md; decisions D5, D7 and D9 of the spec). -/
def Obligations.IndexArithmeticSetsI : Prop :=
  ∀ (x : Reg) (s : State),
    (∃ t, exec (.addI x) s = .next t ∧ t.i.toNat = (s.i.toNat + (s.reg x).toNat) % 65536 ∧ t.pc = s.pc + 2 ∧
      OnlyIndex s t) ∧
    (s.params.valid → ∃ t, exec (.ldF x) s = .next t ∧ t.i.toNat = s.params.fontBase + 5 * (s.reg x).toNat ∧
      t.pc = s.pc + 2 ∧ OnlyIndex s t)

/-- `LD B, Vx` stores the three decimal digits at `I`, `I+1`, `I+2`, which add up to `V[x]`, and leaves `I` alone
(43_index_memory.md; decisions D8 and D10 of the spec for the bound and for `I`). -/
def Obligations.BcdStoresDigits : Prop :=
  ∀ (x : Reg) (s : State), s.indexAddress + 2 < 4096 → ∃ t, exec (.ldB x) s = .next t ∧
    (t.readByte s.indexAddress).toNat = (s.reg x).toNat / 100 ∧
    (t.readByte (s.indexAddress + 1)).toNat = (s.reg x).toNat / 10 % 10 ∧
    (t.readByte (s.indexAddress + 2)).toNat = (s.reg x).toNat % 10 ∧
    100 * (t.readByte s.indexAddress).toNat + 10 * (t.readByte (s.indexAddress + 1)).toNat +
      (t.readByte (s.indexAddress + 2)).toNat = (s.reg x).toNat ∧
    t.pc = s.pc + 2 ∧ OnlyBytes s.indexAddress 3 s t

/-- `LD [I], Vx` stores V0..Vx at `I`..`I+x` and leaves `I` alone (43_index_memory.md; decisions D8 and D10 of the spec). -/
def Obligations.RegisterBlockStored : Prop :=
  ∀ (x : Reg) (s : State), s.indexAddress + x.val < 4096 → ∃ t, exec (.ldMemVx x) s = .next t ∧
    (∀ k : Reg, k ≤ x → t.readByte (s.indexAddress + k.val) = s.reg k) ∧
    t.pc = s.pc + 2 ∧ OnlyBytes s.indexAddress (x.val + 1) s t

/-- `LD Vx, [I]` loads V0..Vx from `I`..`I+x`, leaves the registers above `x` and `I` alone, and stores nothing
(43_index_memory.md; decisions D8 and D10 of the spec). -/
def Obligations.RegisterBlockLoaded : Prop :=
  ∀ (x : Reg) (s : State), s.indexAddress + x.val < 4096 → ∃ t, exec (.ldVxMem x) s = .next t ∧
    (∀ k : Reg, k ≤ x → t.reg k = s.readByte (s.indexAddress + k.val)) ∧ t.pc = s.pc + 2 ∧
    OnlyRegs (regsUpTo x) s t ∧ (∀ k : Reg, k ∈ regsUpTo x ↔ k ≤ x)

/-- A block store, then a block load of the same registers at the same `I` with those bytes not written in between, gives back
the registers (43_index_memory.md section on round trip, which the spec marks as derived). -/
def Obligations.BlockStoreThenLoadRestores : Prop :=
  ∀ (x : Reg) (s t u : State), s.indexAddress + x.val < 4096 → exec (.ldMemVx x) s = .next t →
    u.i = t.i → (∀ k : Reg, k ≤ x → u.readByte (s.indexAddress + k.val) = t.readByte (s.indexAddress + k.val)) →
    ∃ v, exec (.ldVxMem x) u = .next v ∧ ∀ k : Reg, k ≤ x → v.reg k = s.reg k

/-- An access that reaches 4096 faults before anything is written, in each of the four instructions that access memory
(20_memory.md section 4; decision D8 of the spec). The word in the record is the instruction's own. -/
def Obligations.DataAccessOutOfBoundsFaults : Prop :=
  ∀ (x y : Reg) (n : Nat) (s : State),
    (4096 ≤ s.i.toNat + 2 → ∃ t, exec (.ldB x) s = .next t ∧
      OnlyFaulted ⟨.memoryOutOfBounds, s.pc, some (BitVec.ofNat 16 (0xF033 + 256 * x.val))⟩ s t) ∧
    (4096 ≤ s.i.toNat + x.val → ∃ t, exec (.ldMemVx x) s = .next t ∧
      OnlyFaulted ⟨.memoryOutOfBounds, s.pc, some (BitVec.ofNat 16 (0xF055 + 256 * x.val))⟩ s t) ∧
    (4096 ≤ s.i.toNat + x.val → ∃ t, exec (.ldVxMem x) s = .next t ∧
      OnlyFaulted ⟨.memoryOutOfBounds, s.pc, some (BitVec.ofNat 16 (0xF065 + 256 * x.val))⟩ s t) ∧
    (0 < n → n < 16 → 4096 ≤ s.i.toNat + n - 1 → ∃ t, exec (.drw x y n) s = .next t ∧
      OnlyFaulted ⟨.memoryOutOfBounds, s.pc, some (BitVec.ofNat 16 (0xD000 + 256 * x.val + 16 * y.val + n))⟩ s t)

/-! ### Display -/

/-- 44_display.md R170: `CLS` turns every pixel off; VF and everything else is unchanged and no frame is emitted. -/
def Obligations.ClearTurnsEveryPixelOff : Prop :=
  ∀ s : State, ∃ t, exec .cls s = .next t ∧ (∀ p, t.pixel p = false) ∧ t.pc = s.pc + 2 ∧
    KeepsRegs [] s t ∧ t.i = s.i ∧ KeepsStack s t ∧ KeepsTimers s t ∧ KeepsBytes s t ∧ KeepsRun s t ∧ KeepsHost s t

/-- The cells that the sprite bits of 1 of a draw fall on, in the order of 44_display.md R171: rows from top to bottom, in a row
the bits from bit 7 down, coordinates wrapped. Written apart from the model's own `spriteHits`. -/
def Sys2Proof.Machine.spriteCells (x y : Reg) (n : Nat) (s : State) : List Pixel :=
  (List.range n).flatMap fun r =>
    ((List.range 8).filter fun j => (s.readByte (s.indexAddress + r)).getLsbD (7 - j)).map fun j =>
      (((s.reg x).toNat + j) % s.params.fbWidth, ((s.reg y).toNat + r) % s.params.fbHeight)

/-- A draw whose sprite bytes exist inverts each pixel once for every sprite bit of 1 that falls on it, coordinates wrapping;
with no rows it draws nothing. Only pixels, VF and `pc` change (44_display.md R171, R172; decisions D8, D12 and D13 of the
spec). -/
def Obligations.DrawInvertsSpriteCells : Prop :=
  ∀ (x y : Reg) (n : Nat) (s : State), n = 0 ∨ s.indexAddress + n ≤ 4096 → ∃ t, exec (.drw x y n) s = .next t ∧
    (∀ p, t.pixel p = (s.pixel p ^^ decide ((spriteCells x y n s).count p % 2 = 1))) ∧ t.pc = s.pc + 2 ∧
    KeepsRegs [VF] s t ∧ t.i = s.i ∧ KeepsStack s t ∧ KeepsTimers s t ∧ KeepsBytes s t ∧ KeepsRun s t ∧ KeepsHost s t

/-- The collision flag of a draw in any framebuffer: VF is 1 exactly when some sprite bit met a pixel that was on when that bit was
applied, the earlier bits of the same draw counted (44_display.md R173; decision D13 of the spec for the self-overlap of
R174). -/
def Obligations.DrawCollisionInOrder : Prop :=
  ∀ (x y : Reg) (n : Nat) (s t : State), n = 0 ∨ s.indexAddress + n ≤ 4096 → exec (.drw x y n) s = .next t →
    (t.reg VF = 1 ∨ t.reg VF = 0) ∧
    (t.reg VF = 1 ↔ ∃ k, ∃ h : k < (spriteCells x y n s).length,
      (s.pixel (spriteCells x y n s)[k] ^^
        decide (((spriteCells x y n s).take k).count (spriteCells x y n s)[k] % 2 = 1)) = true)

/-- The collision flag where no self-overlap is possible (a grid at least 8 wide and `n` high): VF is 1 exactly when a sprite bit
of 1 falls on a pixel that was on before the draw (44_display.md sections on the flag and on self-overlap). -/
def Obligations.DrawCollisionWithoutOverlap : Prop :=
  ∀ (x y : Reg) (n : Nat) (s t : State), n = 0 ∨ s.indexAddress + n ≤ 4096 → 8 ≤ s.params.fbWidth →
    n ≤ s.params.fbHeight → exec (.drw x y n) s = .next t →
    (t.reg VF = 1 ↔ ∃ r j, r < n ∧ j < 8 ∧ (s.readByte (s.indexAddress + r)).getLsbD (7 - j) = true ∧
      s.pixel (((s.reg x).toNat + j) % s.params.fbWidth, ((s.reg y).toNat + r) % s.params.fbHeight) = true)

/-- Drawing the same sprite twice restores every pixel. The second draw runs at any state `u` with the same `I`, sprite bytes,
coordinates and grid, and the pixels the first draw left. Without self-overlap the second flag is 1 exactly when some sprite bit
of 1 falls on a pixel that was off before the first draw; so, where the first draw met no pixel that was on, exactly when the
sprite has a bit of 1 (44_display.md section on the double draw; log 19: the spec's sentence leaves out that last condition). -/
def Obligations.DoubleDrawRestoresScreen : Prop :=
  ∀ (x y : Reg) (n : Nat) (s t u : State), n = 0 ∨ s.indexAddress + n ≤ 4096 → exec (.drw x y n) s = .next t →
    u.params = s.params → u.i = s.i → u.reg x = s.reg x → u.reg y = s.reg y → KeepsPixels t u →
    (∀ k, k < n → u.readByte (s.indexAddress + k) = s.readByte (s.indexAddress + k)) →
    ∃ v, exec (.drw x y n) u = .next v ∧ KeepsPixels s v ∧
      (8 ≤ s.params.fbWidth → n ≤ s.params.fbHeight →
        (v.reg VF = 1 ↔ ∃ r j, r < n ∧ j < 8 ∧ (s.readByte (s.indexAddress + r)).getLsbD (7 - j) = true ∧
          s.pixel (((s.reg x).toNat + j) % s.params.fbWidth, ((s.reg y).toNat + r) % s.params.fbHeight) = false) ∧
        (t.reg VF = 0 →
          (v.reg VF = 1 ↔ ∃ r j, r < n ∧ j < 8 ∧ (s.readByte (s.indexAddress + r)).getLsbD (7 - j) = true)))

/-! ### Keypad -/

/-- 45_keypad.md R180, R181: the key skips, with an index above 15 counted as not pressed and logged. -/
def Obligations.KeySkipsTestCommittedKeys : Prop :=
  ∀ (x : Reg) (s : State),
    (∃ t, exec (.skp x) s = .next t ∧
      t.pc = (if (s.reg x).toNat ≤ 15 ∧ s.key.getLsbD (s.reg x).toNat = true then s.pc + 4 else s.pc + 2) ∧
      t.outputs = s.outputs ++ (if (s.reg x).toNat ≤ 15 then [] else
        [.anomaly .keyIndexOutOfRange s.pc (BitVec.ofNat 16 (0xE09E + 256 * x.val)) (some (s.reg x))]) ∧
      t.phase = s.phase ∧ KeepsRegs [] s t ∧ t.i = s.i ∧ KeepsStack s t ∧ KeepsTimers s t ∧ KeepsBytes s t ∧
      KeepsPixels s t ∧ KeepsHost s t) ∧
    (∃ t, exec (.sknp x) s = .next t ∧
      t.pc = (if (s.reg x).toNat ≤ 15 ∧ s.key.getLsbD (s.reg x).toNat = true then s.pc + 2 else s.pc + 4) ∧
      t.outputs = s.outputs ++ (if (s.reg x).toNat ≤ 15 then [] else
        [.anomaly .keyIndexOutOfRange s.pc (BitVec.ofNat 16 (0xE0A1 + 256 * x.val)) (some (s.reg x))]) ∧
      t.phase = s.phase ∧ KeepsRegs [] s t ∧ t.i = s.i ∧ KeepsStack s t ∧ KeepsTimers s t ∧ KeepsBytes s t ∧
      KeepsPixels s t ∧ KeepsHost s t)

/-- 45_keypad.md R182: `LD Vx, K` enters the wait and changes nothing else: `pc` stays, `V[x]` is not written. -/
def Obligations.KeyWaitIsEntered : Prop :=
  ∀ (x : Reg) (s : State), ∃ t, exec (.ldVxK x) s = .next t ∧ t.phase = .awaitingKey x ∧ t.pc = s.pc ∧
    t.outputs = s.outputs ∧ KeepsRegs [] s t ∧ t.i = s.i ∧ KeepsStack s t ∧ KeepsTimers s t ∧ KeepsBytes s t ∧
    KeepsPixels s t ∧ KeepsHost s t

/-- The completion half of a key update: with `e` the lowest newly pressed key, `V[x]` is `e`, `pc` passes the Fx0A, the phase is
Running and the vector is committed (45_keypad.md section on the update event, its edge-detection branch). -/
def Obligations.LowestEdgeCompletesWait : Prop :=
  ∀ (x : Reg) (e : Key) (u : Keypad) (s : State), s.phase = .awaitingKey x →
    (u.getLsbD e.val = true ∧ s.key.getLsbD e.val = false) →
    (∀ j : Key, j < e → ¬ (u.getLsbD j.val = true ∧ s.key.getLsbD j.val = false)) →
    ∃ t, applyEvent (.keyUpdate u) s = .next t ∧ (t.reg x).toNat = e.val ∧ t.pc = s.pc + 2 ∧ t.phase = .running ∧
      t.key = u ∧ t.outputs = s.outputs ∧ KeepsRegs [x] s t ∧ t.i = s.i ∧ KeepsStack s t ∧ KeepsTimers s t ∧
      KeepsBytes s t ∧ KeepsPixels s t ∧ KeepsHost (s.setKey u) t

/-- A key update with no newly pressed key, or in Unloaded or Running, only commits the vector; in Halted or Faulted it changes
nothing (45_keypad.md; decisions D18 and D21 of the spec). -/
def Obligations.OtherKeyUpdatesOnlyCommit : Prop :=
  ∀ (u : Keypad) (s : State),
    ((s.phase = .unloaded ∨ s.phase = .running ∨
      (∃ x, s.phase = .awaitingKey x ∧ ∀ j : Key, ¬ (u.getLsbD j.val = true ∧ s.key.getLsbD j.val = false))) →
      ∃ t, applyEvent (.keyUpdate u) s = .next t ∧ t.key = u ∧ t.pc = s.pc ∧ KeepsRegs [] s t ∧ t.i = s.i ∧
        KeepsStack s t ∧ KeepsTimers s t ∧ KeepsBytes s t ∧ KeepsPixels s t ∧ KeepsRun s t ∧ KeepsHost (s.setKey u) t) ∧
    (s.ended = true → applyEvent (.keyUpdate u) s = .next s)

/-- A key held from before the wait through every update never completes it: after any number of updates that all hold key `i`
down, the machine still waits, or has completed with another key (45_keypad.md section on the edge law, which the spec marks as
derived). -/
def Obligations.HeldKeyNeverCompletesWait : Prop :=
  ∀ (x : Reg) (i : Key) (us : List Keypad) (s t : State), s.phase = .awaitingKey x → s.key.getLsbD i.val = true →
    (∀ u ∈ us, u.getLsbD i.val = true) →
    Host.Core.run core us.length (s.setInputs (us.map .keyUpdate)) = .next t →
    t.phase = .awaitingKey x ∨ (t.phase = .running ∧ (t.reg x).toNat ≠ i.val)

/-- Only a key update with a press edge, or `Halt`, ends a key wait (60_exceptions.md R229). -/
def Obligations.OnlyEdgeOrHaltEndsWait : Prop :=
  ∀ (x : Reg) (e : Event) (s t : State), s.phase = .awaitingKey x → applyEvent e s = .next t → t.phase ≠ .awaitingKey x →
    (e = .halt ∧ t.phase = .halted) ∨
    (∃ u, e = .keyUpdate u ∧ t.phase = .running ∧
      ∃ j : Key, u.getLsbD j.val = true ∧ s.key.getLsbD j.val = false ∧ (t.reg x).toNat = j.val)

/-! ### Timers, halt -/

/-- 46_timers.md R190, R191, R192: reading the delay timer, setting the two timers. -/
def Obligations.TimerTransfersCopy : Prop :=
  ∀ (x : Reg) (s : State),
    (∃ t, exec (.ldVxDt x) s = .next t ∧ t.reg x = s.dt ∧ t.pc = s.pc + 2 ∧ OnlyRegs [x] s t) ∧
    (∃ t, exec (.ldDtVx x) s = .next t ∧ t.dt = s.reg x ∧ t.st = s.st ∧ t.pc = s.pc + 2 ∧ KeepsRegs [] s t ∧ t.i = s.i ∧
      KeepsStack s t ∧ KeepsBytes s t ∧ KeepsPixels s t ∧ KeepsRun s t ∧ KeepsHost s t) ∧
    (∃ t, exec (.ldStVx x) s = .next t ∧ t.st = s.reg x ∧ t.dt = s.dt ∧ t.pc = s.pc + 2 ∧ KeepsRegs [] s t ∧ t.i = s.i ∧
      KeepsStack s t ∧ KeepsBytes s t ∧ KeepsPixels s t ∧ KeepsRun s t ∧ KeepsHost s t)

/-- 60_exceptions.md R211, with the decrement of the tick: each timer one less and never below 0, exactly one frame with a copy of
the framebuffer, nothing else; in Halted and Faulted nothing at all (decision D18 of the spec). -/
def Obligations.TickDecrementsAndEmitsFrame : Prop :=
  ∀ s : State,
    (s.ended = false → ∃ t, applyEvent .tick s = .next t ∧ t.dt.toNat = s.dt.toNat - 1 ∧ t.st.toNat = s.st.toNat - 1 ∧
      t.outputs = s.outputs ++ [.frame s.fb] ∧ t.fb = s.fb ∧ t.phase = s.phase ∧ t.pc = s.pc ∧ KeepsRegs [] s t ∧
      t.i = s.i ∧ KeepsStack s t ∧ KeepsBytes s t ∧ KeepsPixels s t ∧ KeepsHost s t) ∧
    (s.ended = true → applyEvent .tick s = .next s)

/-- 60_exceptions.md R213: after `n` applied ticks both timers are `max(d - n, 0)`. -/
def Obligations.TicksCountDownToZero : Prop :=
  ∀ (n : Nat) (s : State), s.ended = false →
    ∃ t, Host.Core.run core n (s.setInputs (List.replicate n .tick)) = .next t ∧
      t.dt.toNat = s.dt.toNat - n ∧ t.st.toNat = s.st.toNat - n

/-- `Halt` moves Unloaded, Running and AwaitingKey to Halted and changes nothing else; in Halted and Faulted it has no effect
(60_exceptions.md; decision D31 of the spec). -/
def Obligations.HaltStopsTheBlock : Prop :=
  ∀ s : State,
    (s.ended = false → ∃ t, applyEvent .halt s = .next t ∧ t.phase = .halted ∧ t.pc = s.pc ∧ t.outputs = s.outputs ∧
      KeepsRegs [] s t ∧ t.i = s.i ∧ KeepsStack s t ∧ KeepsTimers s t ∧ KeepsBytes s t ∧ KeepsPixels s t ∧
      KeepsHost s t) ∧
    (s.ended = true → applyEvent .halt s = .next s)

/-- Halted and Faulted are final: over any number of steps with any inputs the whole state stays, but for the inputs used and the
answers to loads (60_exceptions.md; decisions D18 and D31 of the spec). -/
def Obligations.EndedRunNeverChanges : Prop :=
  ∀ (n : Nat) (s t : State), s.ended = true → Host.Core.run core n s = .next t →
    t.outputs.take s.outputs.length = s.outputs ∧
    { t with inputs := s.inputs, outputs := s.outputs } = s ∧
    (∀ o ∈ t.outputs.drop s.outputs.length, o = .loadResult .loadNotAllowed)

/-! ### The load -/

/-- 70_reset_and_hazards.md R243, a load that succeeds: the bytes are copied to `LOAD_ORIGIN`, every other byte is as before,
`loadEnd` and the phase are set, the answer is emitted (decision D33 of the spec for the phase). -/
def Obligations.LoadCopiesRom : Prop :=
  ∀ (rom : List Byte) (s : State), s.phase = .unloaded → 0 < rom.length → rom.length ≤ 4096 - s.params.loadOrigin →
    ∃ t, applyEvent (.load rom) s = .next t ∧
      (∀ k (h : k < rom.length), t.readByte (s.params.loadOrigin + k) = rom[k]) ∧
      KeepsBytesOutside s.params.loadOrigin rom.length s t ∧ t.loadEnd.toNat = s.params.loadOrigin + rom.length ∧
      t.phase = .running ∧ t.outputs = s.outputs ++ [.loadResult .ok] ∧ t.pc = s.pc ∧ KeepsRegs [] s t ∧ t.i = s.i ∧
      KeepsStack s t ∧ KeepsTimers s t ∧ KeepsPixels s t ∧ KeepsHost (s.setLoadEnd t.loadEnd) t

/-- 70_reset_and_hazards.md R244, R245: an empty and a too large load change no state but emit their answer; so does a load in any
phase but Unloaded (decision D33 of the spec). -/
def Obligations.FailedLoadsChangeNothing : Prop :=
  ∀ (rom : List Byte) (s : State),
    (s.phase = .unloaded → rom.length = 0 → applyEvent (.load rom) s = .next (s.emit (.loadResult .loadEmpty))) ∧
    (s.phase = .unloaded → rom.length ≠ 0 → 4096 - s.params.loadOrigin < rom.length →
      applyEvent (.load rom) s = .next (s.emit (.loadResult .loadTooLarge))) ∧
    (s.phase ≠ .unloaded → applyEvent (.load rom) s = .next (s.emit (.loadResult .loadNotAllowed)))

/-! ### Rules about every instruction -/

/-- The pixels, the bytes of memory, `I`, the stack, `sp` and the timers are written by the instructions the state rules name as
their writers and by no others, and no instruction writes the keypad, `loadEnd`, the parameters or the model's own inputs
(10_state.md sections 2 and 4 to 8, 20_memory.md section 1, 00_scope.md section 4; logs 1, 3, 5). V0..VF, `pc`, the phase and the
outputs are not covered here. -/
def Obligations.OnlyNamedInstructionsWrite : Prop :=
  ∀ (i : Instr) (s t : State), exec i s = .next t →
    (¬ KeepsPixels s t → i = .cls ∨ ∃ x y n, i = .drw x y n) ∧
    (¬ KeepsBytes s t → (∃ x, i = .ldB x) ∨ ∃ x, i = .ldMemVx x) ∧
    (t.i ≠ s.i → (∃ a, i = .ldI a) ∨ (∃ x, i = .addI x) ∨ ∃ x, i = .ldF x) ∧
    ((∃ j, t.slot j ≠ s.slot j) → ∃ a, i = .call a) ∧
    (t.sp ≠ s.sp → i = .ret ∨ ∃ a, i = .call a) ∧
    (t.dt ≠ s.dt → ∃ x, i = .ldDtVx x) ∧ (t.st ≠ s.st → ∃ x, i = .ldStVx x) ∧ KeepsHost s t

/-- 10_state.md R21: VF changes only in the flag writers, or in an instruction that names it as its destination. Fx0A writes its
register when its wait completes, not in its own cycle. -/
def Obligations.OnlyFlagWritersWriteVF : Prop :=
  ∀ (i : Instr) (s t : State), exec i s = .next t → t.reg VF ≠ s.reg VF →
    (∃ x y, i = .addReg x y ∨ i = .subReg x y ∨ i = .subnReg x y ∨ i = .shr x y ∨ i = .shl x y ∨ ∃ n, i = .drw x y n) ∨
    (∃ kk, i = .ldImm VF kk ∨ i = .addImm VF kk ∨ i = .rnd VF kk) ∨
    (∃ y, i = .ldReg VF y ∨ i = .orReg VF y ∨ i = .andReg VF y ∨ i = .xorReg VF y) ∨
    i = .ldVxDt VF ∨ i = .ldVxMem VF

/-- When an instruction or its fetch raises a fault, nothing of the cycle is committed: the whole state is as it was before (the
latched random input aside), but for the phase, whose record holds the address of the instruction and the word fetched there
(60_exceptions.md R200, R201; 10_state.md R39), or none when the fetch itself failed (decision D17 of the spec, log 18). The kind
of the fault is the subject of the statements about each fault. -/
def Obligations.FaultsArePrecise : Prop :=
  ∀ (s t : State) (r : Byte) (f : FaultRecord), s.phase = .running → applyEvent (.step r) s = .next t →
    t.phase = .faulted f → t.setPhase .running = s.setRnd r ∧ f.pc = s.pc ∧ f.word = s.fetchWord

/-- One cycle of a running machine raises a fault exactly when software broke one of its duties: call depth, return with an entry,
`pc` at most 4094, accesses below 4096 (70_reset_and_hazards.md R251; decision D8 of the spec for the fourth). -/
def Obligations.FaultsExactlyWhenDutyBroken : Prop :=
  ∀ (s t : State) (r : Byte), s.phase = .running → applyEvent (.step r) s = .next t →
    (t.failed = true ↔ ¬ meetsDuties s)

/-- One cycle reports at most one fault or one anomaly, never both (60_exceptions.md section 3, which the spec marks as derived). -/
def Obligations.CycleReportsAtMostOnce : Prop :=
  ∀ (s t : State) (r : Byte), s.phase = .running → applyEvent (.step r) s = .next t →
    (t.failed = true ∧ t.outputs = s.outputs) ∨
    (t.failed = false ∧ (t.outputs = s.outputs ∨ ∃ o, t.outputs = s.outputs ++ [o]))

/-- The random input is used by Cxkk alone: with another input, every other instruction does the same (10_state.md section on the
random source). -/
def Obligations.OnlyRndUsesRandomInput : Prop :=
  ∀ (i : Instr) (s t : State) (r : Byte), (∀ x kk, i ≠ .rnd x kk) → exec i s = .next t →
    exec i (s.setRnd r) = .next (t.setRnd r)

/-- No instruction reads the output log: with another log before, the same outputs are appended and all else is the same
(10_state.md section 12). -/
def Obligations.OutputLogIsNeverRead : Prop :=
  ∀ (i : Instr) (s t : State) (log : List Output), exec i s = .next t →
    ∃ new, t.outputs = s.outputs ++ new ∧
      exec i { s with outputs := log } = .next { t with outputs := log ++ new }
end

