-- ==== Sys2Proof/Laws/Encoding.lean ====
section
/-! SUPPORT. The bits of the three word formats, their fixed bits under the table's masks, and their fields read back. -/

namespace Sys2Proof

variable (op n : BitVec 4) (x y : Reg) (kk : Byte) (nnn : Addr) (k : Nat)

theorem getLsbD_encAddr : (encAddr op nnn).getLsbD k = if k < 12 then nnn.getLsbD k else op.getLsbD (k - 12) :=
  (BitVec.getLsbD_append (x := op) (y := nnn)).trans (by rfl)

theorem getLsbD_encXkk : (encXkk op x kk).getLsbD k =
    if k < 8 then kk.getLsbD k else if k < 12 then (nibbleOfReg x).getLsbD (k - 8) else op.getLsbD (k - 12) := by
  refine (BitVec.getLsbD_append (x := op ++ nibbleOfReg x) (y := kk)).trans ?_
  rw [BitVec.getLsbD_append]
  by_cases h8 : k < 8
  · simp [h8]
  · by_cases h12 : k < 12
    · simp [h8, h12, show k - 8 < 4 by omega]
    · simp [h8, h12, show ¬ (k - 8 < 4) by omega, show k - 8 - 4 = k - 12 by omega]

theorem getLsbD_encXyn : (encXyn op x y n).getLsbD k =
    if k < 4 then n.getLsbD k else if k < 8 then (nibbleOfReg y).getLsbD (k - 4)
    else if k < 12 then (nibbleOfReg x).getLsbD (k - 8) else op.getLsbD (k - 12) := by
  refine (BitVec.getLsbD_append (x := op ++ nibbleOfReg x ++ nibbleOfReg y) (y := n)).trans ?_
  rw [BitVec.getLsbD_append, BitVec.getLsbD_append]
  by_cases h4 : k < 4
  · simp [h4]
  · by_cases h8 : k < 8
    · simp [h4, h8, show k - 4 < 4 by omega]
    · by_cases h12 : k < 12
      · simp [h4, h8, h12, show ¬ (k - 4 < 4) by omega, show k - 8 < 4 by omega, show k - 4 - 4 = k - 8 by omega]
      · simp [h4, h8, h12, show ¬ (k - 4 < 4) by omega, show ¬ (k - 4 - 4 < 4) by omega,
          show k - 4 - 4 - 4 = k - 12 by omega]

/-! ### The formats as numbers -/

theorem toNat_encAddr : (encAddr op nnn).toNat = op.toNat * 4096 + nnn.toNat := by
  have h : (op ++ nnn).toNat = op.toNat * 4096 + nnn.toNat := by
    rw [BitVec.toNat_append, ← Nat.shiftLeft_add_eq_or_of_lt nnn.isLt, Nat.shiftLeft_eq]
  exact h

theorem toNat_nibbleOfReg : (nibbleOfReg x).toNat = x.val := by
  simp [nibbleOfReg]

theorem toNat_encXkk : (encXkk op x kk).toNat = op.toNat * 4096 + x.val * 256 + kk.toNat := by
  have h : (op ++ nibbleOfReg x ++ kk).toNat = op.toNat * 4096 + x.val * 256 + kk.toNat := by
    rw [BitVec.toNat_append, ← Nat.shiftLeft_add_eq_or_of_lt kk.isLt, Nat.shiftLeft_eq, BitVec.toNat_append,
      ← Nat.shiftLeft_add_eq_or_of_lt (nibbleOfReg x).isLt, Nat.shiftLeft_eq, toNat_nibbleOfReg]
    omega
  exact h

theorem toNat_encXyn : (encXyn op x y n).toNat = op.toNat * 4096 + x.val * 256 + y.val * 16 + n.toNat := by
  have h : (op ++ nibbleOfReg x ++ nibbleOfReg y ++ n).toNat =
      op.toNat * 4096 + x.val * 256 + y.val * 16 + n.toNat := by
    rw [BitVec.toNat_append, ← Nat.shiftLeft_add_eq_or_of_lt n.isLt, Nat.shiftLeft_eq, BitVec.toNat_append,
      ← Nat.shiftLeft_add_eq_or_of_lt (nibbleOfReg y).isLt, Nat.shiftLeft_eq, BitVec.toNat_append,
      ← Nat.shiftLeft_add_eq_or_of_lt (nibbleOfReg x).isLt, Nat.shiftLeft_eq, toNat_nibbleOfReg, toNat_nibbleOfReg]
    omega
  exact h

/-- The big-endian word of two bytes as a number (20_memory.md R52). -/
theorem toNat_wordOfBytes (hi lo : Byte) : (wordOfBytes hi lo).toNat = hi.toNat * 256 + lo.toNat := by
  have h : (hi ++ lo).toNat = hi.toNat * 256 + lo.toNat := by
    rw [BitVec.toNat_append, ← Nat.shiftLeft_add_eq_or_of_lt lo.isLt, Nat.shiftLeft_eq]
  exact h

/-! ### The fixed bits under the masks of the table (30_encoding.md R75) -/

theorem encAddr_and : encAddr op nnn &&& 0xF000 = encAddr op 0 := by
  apply BitVec.eq_of_getLsbD_eq
  intro k hk
  rw [BitVec.getLsbD_and, getLsbD_encAddr, getLsbD_encAddr]
  interval_cases k <;> simp

theorem encXkk_and : encXkk op x kk &&& 0xF000 = encXkk op 0 0 := by
  apply BitVec.eq_of_getLsbD_eq
  intro k hk
  rw [BitVec.getLsbD_and, getLsbD_encXkk, getLsbD_encXkk]
  interval_cases k <;> simp [nibbleOfReg]

theorem encXkk_and_fn : encXkk op x kk &&& 0xF0FF = encXkk op 0 kk := by
  apply BitVec.eq_of_getLsbD_eq
  intro k hk
  rw [BitVec.getLsbD_and, getLsbD_encXkk, getLsbD_encXkk]
  interval_cases k <;> simp [nibbleOfReg]

theorem encXyn_and : encXyn op x y n &&& 0xF00F = encXyn op 0 0 n := by
  apply BitVec.eq_of_getLsbD_eq
  intro k hk
  rw [BitVec.getLsbD_and, getLsbD_encXyn, getLsbD_encXyn]
  interval_cases k <;> simp [nibbleOfReg]

theorem encXyn_and_op : encXyn op x y n &&& 0xF000 = encXyn op 0 0 0 := by
  apply BitVec.eq_of_getLsbD_eq
  intro k hk
  rw [BitVec.getLsbD_and, getLsbD_encXyn, getLsbD_encXyn]
  interval_cases k <;> simp [nibbleOfReg]

/-! ### The fields read back (30_encoding.md R71) -/

theorem regOfNibble_nibbleOfReg : regOfNibble (nibbleOfReg x) = x := by revert x; decide

theorem nibbleOfReg_regOfNibble (b : BitVec 4) : nibbleOfReg (regOfNibble b) = b := by revert b; decide

@[simp] theorem fields_encAddr_nnn : (fields (encAddr op nnn)).nnn = nnn := by
  apply BitVec.eq_of_getLsbD_eq
  intro k hk
  simp only [fields, BitVec.getLsbD_extractLsb', getLsbD_encAddr]
  simp [hk]

@[simp] theorem fields_encXkk_x : (fields (encXkk op x kk)).x = x := by
  have h : (encXkk op x kk).extractLsb' 8 4 = nibbleOfReg x := by
    apply BitVec.eq_of_getLsbD_eq
    intro k hk
    simp only [BitVec.getLsbD_extractLsb', getLsbD_encXkk]
    simp [hk, show 8 + k < 12 by omega]
  simp only [fields, h, regOfNibble_nibbleOfReg]

@[simp] theorem fields_encXkk_kk : (fields (encXkk op x kk)).kk = kk := by
  apply BitVec.eq_of_getLsbD_eq
  intro k hk
  simp only [fields, BitVec.getLsbD_extractLsb', getLsbD_encXkk]
  simp [hk]

@[simp] theorem fields_encXyn_x : (fields (encXyn op x y n)).x = x := by
  have h : (encXyn op x y n).extractLsb' 8 4 = nibbleOfReg x := by
    apply BitVec.eq_of_getLsbD_eq
    intro k hk
    simp only [BitVec.getLsbD_extractLsb', getLsbD_encXyn]
    simp [hk, show 8 + k < 12 by omega, show ¬ (8 + k < 4) by omega]
  simp only [fields, h, regOfNibble_nibbleOfReg]

@[simp] theorem fields_encXyn_y : (fields (encXyn op x y n)).y = y := by
  have h : (encXyn op x y n).extractLsb' 4 4 = nibbleOfReg y := by
    apply BitVec.eq_of_getLsbD_eq
    intro k hk
    simp only [BitVec.getLsbD_extractLsb', getLsbD_encXyn]
    simp [hk, show 4 + k < 8 by omega]
  simp only [fields, h, regOfNibble_nibbleOfReg]

@[simp] theorem fields_encXyn_n : (fields (encXyn op x y n)).n = n := by
  apply BitVec.eq_of_getLsbD_eq
  intro k hk
  simp only [fields, BitVec.getLsbD_extractLsb', getLsbD_encXyn]
  simp [hk]

end Sys2Proof
end

