-- ==== Sys2Proof/Laws/State.lean ====
section
/-! SUPPORT. One lemma per field per update, and per reading per update. -/

namespace Sys2Proof.Machine.State

variable (s : State)

@[simp] theorem setReg_params (x : Reg) (b : Byte) : (s.setReg x b).params = s.params := rfl
@[simp] theorem setReg_v (x : Reg) (b : Byte) : (s.setReg x b).v = s.v.set x.val b x.isLt := rfl
@[simp] theorem setReg_i (x : Reg) (b : Byte) : (s.setReg x b).i = s.i := rfl
@[simp] theorem setReg_pc (x : Reg) (b : Byte) : (s.setReg x b).pc = s.pc := rfl
@[simp] theorem setReg_stack (x : Reg) (b : Byte) : (s.setReg x b).stack = s.stack := rfl
@[simp] theorem setReg_sp (x : Reg) (b : Byte) : (s.setReg x b).sp = s.sp := rfl
@[simp] theorem setReg_dt (x : Reg) (b : Byte) : (s.setReg x b).dt = s.dt := rfl
@[simp] theorem setReg_st (x : Reg) (b : Byte) : (s.setReg x b).st = s.st := rfl
@[simp] theorem setReg_mem (x : Reg) (b : Byte) : (s.setReg x b).mem = s.mem := rfl
@[simp] theorem setReg_fb (x : Reg) (b : Byte) : (s.setReg x b).fb = s.fb := rfl
@[simp] theorem setReg_key (x : Reg) (b : Byte) : (s.setReg x b).key = s.key := rfl
@[simp] theorem setReg_loadEnd (x : Reg) (b : Byte) : (s.setReg x b).loadEnd = s.loadEnd := rfl
@[simp] theorem setReg_phase (x : Reg) (b : Byte) : (s.setReg x b).phase = s.phase := rfl
@[simp] theorem setReg_inputs (x : Reg) (b : Byte) : (s.setReg x b).inputs = s.inputs := rfl
@[simp] theorem setReg_outputs (x : Reg) (b : Byte) : (s.setReg x b).outputs = s.outputs := rfl
@[simp] theorem setReg_rnd (x : Reg) (b : Byte) : (s.setReg x b).rnd = s.rnd := rfl
@[simp] theorem setReg_draws (x : Reg) (b : Byte) : (s.setReg x b).draws = s.draws := rfl
@[simp] theorem setReg_slot (x : Reg) (b : Byte) (l : Fin 16) : (s.setReg x b).slot l = s.slot l := rfl
@[simp] theorem setReg_readByte (x : Reg) (b : Byte) (c : Nat) : (s.setReg x b).readByte c = s.readByte c := rfl
@[simp] theorem setReg_pixel (x : Reg) (b : Byte) (q : Pixel) : (s.setReg x b).pixel q = s.pixel q := rfl

@[simp] theorem setI_params (a : Word) : (s.setI a).params = s.params := rfl
@[simp] theorem setI_v (a : Word) : (s.setI a).v = s.v := rfl
@[simp] theorem setI_i (a : Word) : (s.setI a).i = a := rfl
@[simp] theorem setI_pc (a : Word) : (s.setI a).pc = s.pc := rfl
@[simp] theorem setI_stack (a : Word) : (s.setI a).stack = s.stack := rfl
@[simp] theorem setI_sp (a : Word) : (s.setI a).sp = s.sp := rfl
@[simp] theorem setI_dt (a : Word) : (s.setI a).dt = s.dt := rfl
@[simp] theorem setI_st (a : Word) : (s.setI a).st = s.st := rfl
@[simp] theorem setI_mem (a : Word) : (s.setI a).mem = s.mem := rfl
@[simp] theorem setI_fb (a : Word) : (s.setI a).fb = s.fb := rfl
@[simp] theorem setI_key (a : Word) : (s.setI a).key = s.key := rfl
@[simp] theorem setI_loadEnd (a : Word) : (s.setI a).loadEnd = s.loadEnd := rfl
@[simp] theorem setI_phase (a : Word) : (s.setI a).phase = s.phase := rfl
@[simp] theorem setI_inputs (a : Word) : (s.setI a).inputs = s.inputs := rfl
@[simp] theorem setI_outputs (a : Word) : (s.setI a).outputs = s.outputs := rfl
@[simp] theorem setI_rnd (a : Word) : (s.setI a).rnd = s.rnd := rfl
@[simp] theorem setI_draws (a : Word) : (s.setI a).draws = s.draws := rfl
@[simp] theorem setI_reg (a : Word) (y : Reg) : (s.setI a).reg y = s.reg y := rfl
@[simp] theorem setI_slot (a : Word) (l : Fin 16) : (s.setI a).slot l = s.slot l := rfl
@[simp] theorem setI_readByte (a : Word) (c : Nat) : (s.setI a).readByte c = s.readByte c := rfl
@[simp] theorem setI_pixel (a : Word) (q : Pixel) : (s.setI a).pixel q = s.pixel q := rfl

@[simp] theorem setPc_params (a : Word) : (s.setPc a).params = s.params := rfl
@[simp] theorem setPc_v (a : Word) : (s.setPc a).v = s.v := rfl
@[simp] theorem setPc_i (a : Word) : (s.setPc a).i = s.i := rfl
@[simp] theorem setPc_pc (a : Word) : (s.setPc a).pc = a := rfl
@[simp] theorem setPc_stack (a : Word) : (s.setPc a).stack = s.stack := rfl
@[simp] theorem setPc_sp (a : Word) : (s.setPc a).sp = s.sp := rfl
@[simp] theorem setPc_dt (a : Word) : (s.setPc a).dt = s.dt := rfl
@[simp] theorem setPc_st (a : Word) : (s.setPc a).st = s.st := rfl
@[simp] theorem setPc_mem (a : Word) : (s.setPc a).mem = s.mem := rfl
@[simp] theorem setPc_fb (a : Word) : (s.setPc a).fb = s.fb := rfl
@[simp] theorem setPc_key (a : Word) : (s.setPc a).key = s.key := rfl
@[simp] theorem setPc_loadEnd (a : Word) : (s.setPc a).loadEnd = s.loadEnd := rfl
@[simp] theorem setPc_phase (a : Word) : (s.setPc a).phase = s.phase := rfl
@[simp] theorem setPc_inputs (a : Word) : (s.setPc a).inputs = s.inputs := rfl
@[simp] theorem setPc_outputs (a : Word) : (s.setPc a).outputs = s.outputs := rfl
@[simp] theorem setPc_rnd (a : Word) : (s.setPc a).rnd = s.rnd := rfl
@[simp] theorem setPc_draws (a : Word) : (s.setPc a).draws = s.draws := rfl
@[simp] theorem setPc_reg (a : Word) (y : Reg) : (s.setPc a).reg y = s.reg y := rfl
@[simp] theorem setPc_slot (a : Word) (l : Fin 16) : (s.setPc a).slot l = s.slot l := rfl
@[simp] theorem setPc_readByte (a : Word) (c : Nat) : (s.setPc a).readByte c = s.readByte c := rfl
@[simp] theorem setPc_pixel (a : Word) (q : Pixel) : (s.setPc a).pixel q = s.pixel q := rfl

@[simp] theorem setSlot_params (j : Fin 16) (a : Word) : (s.setSlot j a).params = s.params := rfl
@[simp] theorem setSlot_v (j : Fin 16) (a : Word) : (s.setSlot j a).v = s.v := rfl
@[simp] theorem setSlot_i (j : Fin 16) (a : Word) : (s.setSlot j a).i = s.i := rfl
@[simp] theorem setSlot_pc (j : Fin 16) (a : Word) : (s.setSlot j a).pc = s.pc := rfl
@[simp] theorem setSlot_stack (j : Fin 16) (a : Word) : (s.setSlot j a).stack = s.stack.set j.val a j.isLt := rfl
@[simp] theorem setSlot_sp (j : Fin 16) (a : Word) : (s.setSlot j a).sp = s.sp := rfl
@[simp] theorem setSlot_dt (j : Fin 16) (a : Word) : (s.setSlot j a).dt = s.dt := rfl
@[simp] theorem setSlot_st (j : Fin 16) (a : Word) : (s.setSlot j a).st = s.st := rfl
@[simp] theorem setSlot_mem (j : Fin 16) (a : Word) : (s.setSlot j a).mem = s.mem := rfl
@[simp] theorem setSlot_fb (j : Fin 16) (a : Word) : (s.setSlot j a).fb = s.fb := rfl
@[simp] theorem setSlot_key (j : Fin 16) (a : Word) : (s.setSlot j a).key = s.key := rfl
@[simp] theorem setSlot_loadEnd (j : Fin 16) (a : Word) : (s.setSlot j a).loadEnd = s.loadEnd := rfl
@[simp] theorem setSlot_phase (j : Fin 16) (a : Word) : (s.setSlot j a).phase = s.phase := rfl
@[simp] theorem setSlot_inputs (j : Fin 16) (a : Word) : (s.setSlot j a).inputs = s.inputs := rfl
@[simp] theorem setSlot_outputs (j : Fin 16) (a : Word) : (s.setSlot j a).outputs = s.outputs := rfl
@[simp] theorem setSlot_rnd (j : Fin 16) (a : Word) : (s.setSlot j a).rnd = s.rnd := rfl
@[simp] theorem setSlot_draws (j : Fin 16) (a : Word) : (s.setSlot j a).draws = s.draws := rfl
@[simp] theorem setSlot_reg (j : Fin 16) (a : Word) (y : Reg) : (s.setSlot j a).reg y = s.reg y := rfl
@[simp] theorem setSlot_readByte (j : Fin 16) (a : Word) (c : Nat) : (s.setSlot j a).readByte c = s.readByte c := rfl
@[simp] theorem setSlot_pixel (j : Fin 16) (a : Word) (q : Pixel) : (s.setSlot j a).pixel q = s.pixel q := rfl

@[simp] theorem setSp_params (n : Fin 17) : (s.setSp n).params = s.params := rfl
@[simp] theorem setSp_v (n : Fin 17) : (s.setSp n).v = s.v := rfl
@[simp] theorem setSp_i (n : Fin 17) : (s.setSp n).i = s.i := rfl
@[simp] theorem setSp_pc (n : Fin 17) : (s.setSp n).pc = s.pc := rfl
@[simp] theorem setSp_stack (n : Fin 17) : (s.setSp n).stack = s.stack := rfl
@[simp] theorem setSp_sp (n : Fin 17) : (s.setSp n).sp = n := rfl
@[simp] theorem setSp_dt (n : Fin 17) : (s.setSp n).dt = s.dt := rfl
@[simp] theorem setSp_st (n : Fin 17) : (s.setSp n).st = s.st := rfl
@[simp] theorem setSp_mem (n : Fin 17) : (s.setSp n).mem = s.mem := rfl
@[simp] theorem setSp_fb (n : Fin 17) : (s.setSp n).fb = s.fb := rfl
@[simp] theorem setSp_key (n : Fin 17) : (s.setSp n).key = s.key := rfl
@[simp] theorem setSp_loadEnd (n : Fin 17) : (s.setSp n).loadEnd = s.loadEnd := rfl
@[simp] theorem setSp_phase (n : Fin 17) : (s.setSp n).phase = s.phase := rfl
@[simp] theorem setSp_inputs (n : Fin 17) : (s.setSp n).inputs = s.inputs := rfl
@[simp] theorem setSp_outputs (n : Fin 17) : (s.setSp n).outputs = s.outputs := rfl
@[simp] theorem setSp_rnd (n : Fin 17) : (s.setSp n).rnd = s.rnd := rfl
@[simp] theorem setSp_draws (n : Fin 17) : (s.setSp n).draws = s.draws := rfl
@[simp] theorem setSp_reg (n : Fin 17) (y : Reg) : (s.setSp n).reg y = s.reg y := rfl
@[simp] theorem setSp_slot (n : Fin 17) (l : Fin 16) : (s.setSp n).slot l = s.slot l := rfl
@[simp] theorem setSp_readByte (n : Fin 17) (c : Nat) : (s.setSp n).readByte c = s.readByte c := rfl
@[simp] theorem setSp_pixel (n : Fin 17) (q : Pixel) : (s.setSp n).pixel q = s.pixel q := rfl

@[simp] theorem setDt_params (b : Byte) : (s.setDt b).params = s.params := rfl
@[simp] theorem setDt_v (b : Byte) : (s.setDt b).v = s.v := rfl
@[simp] theorem setDt_i (b : Byte) : (s.setDt b).i = s.i := rfl
@[simp] theorem setDt_pc (b : Byte) : (s.setDt b).pc = s.pc := rfl
@[simp] theorem setDt_stack (b : Byte) : (s.setDt b).stack = s.stack := rfl
@[simp] theorem setDt_sp (b : Byte) : (s.setDt b).sp = s.sp := rfl
@[simp] theorem setDt_dt (b : Byte) : (s.setDt b).dt = b := rfl
@[simp] theorem setDt_st (b : Byte) : (s.setDt b).st = s.st := rfl
@[simp] theorem setDt_mem (b : Byte) : (s.setDt b).mem = s.mem := rfl
@[simp] theorem setDt_fb (b : Byte) : (s.setDt b).fb = s.fb := rfl
@[simp] theorem setDt_key (b : Byte) : (s.setDt b).key = s.key := rfl
@[simp] theorem setDt_loadEnd (b : Byte) : (s.setDt b).loadEnd = s.loadEnd := rfl
@[simp] theorem setDt_phase (b : Byte) : (s.setDt b).phase = s.phase := rfl
@[simp] theorem setDt_inputs (b : Byte) : (s.setDt b).inputs = s.inputs := rfl
@[simp] theorem setDt_outputs (b : Byte) : (s.setDt b).outputs = s.outputs := rfl
@[simp] theorem setDt_rnd (b : Byte) : (s.setDt b).rnd = s.rnd := rfl
@[simp] theorem setDt_draws (b : Byte) : (s.setDt b).draws = s.draws := rfl
@[simp] theorem setDt_reg (b : Byte) (y : Reg) : (s.setDt b).reg y = s.reg y := rfl
@[simp] theorem setDt_slot (b : Byte) (l : Fin 16) : (s.setDt b).slot l = s.slot l := rfl
@[simp] theorem setDt_readByte (b : Byte) (c : Nat) : (s.setDt b).readByte c = s.readByte c := rfl
@[simp] theorem setDt_pixel (b : Byte) (q : Pixel) : (s.setDt b).pixel q = s.pixel q := rfl

@[simp] theorem setSt_params (b : Byte) : (s.setSt b).params = s.params := rfl
@[simp] theorem setSt_v (b : Byte) : (s.setSt b).v = s.v := rfl
@[simp] theorem setSt_i (b : Byte) : (s.setSt b).i = s.i := rfl
@[simp] theorem setSt_pc (b : Byte) : (s.setSt b).pc = s.pc := rfl
@[simp] theorem setSt_stack (b : Byte) : (s.setSt b).stack = s.stack := rfl
@[simp] theorem setSt_sp (b : Byte) : (s.setSt b).sp = s.sp := rfl
@[simp] theorem setSt_dt (b : Byte) : (s.setSt b).dt = s.dt := rfl
@[simp] theorem setSt_st (b : Byte) : (s.setSt b).st = b := rfl
@[simp] theorem setSt_mem (b : Byte) : (s.setSt b).mem = s.mem := rfl
@[simp] theorem setSt_fb (b : Byte) : (s.setSt b).fb = s.fb := rfl
@[simp] theorem setSt_key (b : Byte) : (s.setSt b).key = s.key := rfl
@[simp] theorem setSt_loadEnd (b : Byte) : (s.setSt b).loadEnd = s.loadEnd := rfl
@[simp] theorem setSt_phase (b : Byte) : (s.setSt b).phase = s.phase := rfl
@[simp] theorem setSt_inputs (b : Byte) : (s.setSt b).inputs = s.inputs := rfl
@[simp] theorem setSt_outputs (b : Byte) : (s.setSt b).outputs = s.outputs := rfl
@[simp] theorem setSt_rnd (b : Byte) : (s.setSt b).rnd = s.rnd := rfl
@[simp] theorem setSt_draws (b : Byte) : (s.setSt b).draws = s.draws := rfl
@[simp] theorem setSt_reg (b : Byte) (y : Reg) : (s.setSt b).reg y = s.reg y := rfl
@[simp] theorem setSt_slot (b : Byte) (l : Fin 16) : (s.setSt b).slot l = s.slot l := rfl
@[simp] theorem setSt_readByte (b : Byte) (c : Nat) : (s.setSt b).readByte c = s.readByte c := rfl
@[simp] theorem setSt_pixel (b : Byte) (q : Pixel) : (s.setSt b).pixel q = s.pixel q := rfl

@[simp] theorem setMem_params (m : Memory) : (s.setMem m).params = s.params := rfl
@[simp] theorem setMem_v (m : Memory) : (s.setMem m).v = s.v := rfl
@[simp] theorem setMem_i (m : Memory) : (s.setMem m).i = s.i := rfl
@[simp] theorem setMem_pc (m : Memory) : (s.setMem m).pc = s.pc := rfl
@[simp] theorem setMem_stack (m : Memory) : (s.setMem m).stack = s.stack := rfl
@[simp] theorem setMem_sp (m : Memory) : (s.setMem m).sp = s.sp := rfl
@[simp] theorem setMem_dt (m : Memory) : (s.setMem m).dt = s.dt := rfl
@[simp] theorem setMem_st (m : Memory) : (s.setMem m).st = s.st := rfl
@[simp] theorem setMem_mem (m : Memory) : (s.setMem m).mem = m := rfl
@[simp] theorem setMem_fb (m : Memory) : (s.setMem m).fb = s.fb := rfl
@[simp] theorem setMem_key (m : Memory) : (s.setMem m).key = s.key := rfl
@[simp] theorem setMem_loadEnd (m : Memory) : (s.setMem m).loadEnd = s.loadEnd := rfl
@[simp] theorem setMem_phase (m : Memory) : (s.setMem m).phase = s.phase := rfl
@[simp] theorem setMem_inputs (m : Memory) : (s.setMem m).inputs = s.inputs := rfl
@[simp] theorem setMem_outputs (m : Memory) : (s.setMem m).outputs = s.outputs := rfl
@[simp] theorem setMem_rnd (m : Memory) : (s.setMem m).rnd = s.rnd := rfl
@[simp] theorem setMem_draws (m : Memory) : (s.setMem m).draws = s.draws := rfl
@[simp] theorem setMem_reg (m : Memory) (y : Reg) : (s.setMem m).reg y = s.reg y := rfl
@[simp] theorem setMem_slot (m : Memory) (l : Fin 16) : (s.setMem m).slot l = s.slot l := rfl
@[simp] theorem setMem_pixel (m : Memory) (q : Pixel) : (s.setMem m).pixel q = s.pixel q := rfl

@[simp] theorem setFb_params (g : Framebuffer) : (s.setFb g).params = s.params := rfl
@[simp] theorem setFb_v (g : Framebuffer) : (s.setFb g).v = s.v := rfl
@[simp] theorem setFb_i (g : Framebuffer) : (s.setFb g).i = s.i := rfl
@[simp] theorem setFb_pc (g : Framebuffer) : (s.setFb g).pc = s.pc := rfl
@[simp] theorem setFb_stack (g : Framebuffer) : (s.setFb g).stack = s.stack := rfl
@[simp] theorem setFb_sp (g : Framebuffer) : (s.setFb g).sp = s.sp := rfl
@[simp] theorem setFb_dt (g : Framebuffer) : (s.setFb g).dt = s.dt := rfl
@[simp] theorem setFb_st (g : Framebuffer) : (s.setFb g).st = s.st := rfl
@[simp] theorem setFb_mem (g : Framebuffer) : (s.setFb g).mem = s.mem := rfl
@[simp] theorem setFb_fb (g : Framebuffer) : (s.setFb g).fb = g := rfl
@[simp] theorem setFb_key (g : Framebuffer) : (s.setFb g).key = s.key := rfl
@[simp] theorem setFb_loadEnd (g : Framebuffer) : (s.setFb g).loadEnd = s.loadEnd := rfl
@[simp] theorem setFb_phase (g : Framebuffer) : (s.setFb g).phase = s.phase := rfl
@[simp] theorem setFb_inputs (g : Framebuffer) : (s.setFb g).inputs = s.inputs := rfl
@[simp] theorem setFb_outputs (g : Framebuffer) : (s.setFb g).outputs = s.outputs := rfl
@[simp] theorem setFb_rnd (g : Framebuffer) : (s.setFb g).rnd = s.rnd := rfl
@[simp] theorem setFb_draws (g : Framebuffer) : (s.setFb g).draws = s.draws := rfl
@[simp] theorem setFb_reg (g : Framebuffer) (y : Reg) : (s.setFb g).reg y = s.reg y := rfl
@[simp] theorem setFb_slot (g : Framebuffer) (l : Fin 16) : (s.setFb g).slot l = s.slot l := rfl
@[simp] theorem setFb_readByte (g : Framebuffer) (c : Nat) : (s.setFb g).readByte c = s.readByte c := rfl

@[simp] theorem setKey_params (k : Keypad) : (s.setKey k).params = s.params := rfl
@[simp] theorem setKey_v (k : Keypad) : (s.setKey k).v = s.v := rfl
@[simp] theorem setKey_i (k : Keypad) : (s.setKey k).i = s.i := rfl
@[simp] theorem setKey_pc (k : Keypad) : (s.setKey k).pc = s.pc := rfl
@[simp] theorem setKey_stack (k : Keypad) : (s.setKey k).stack = s.stack := rfl
@[simp] theorem setKey_sp (k : Keypad) : (s.setKey k).sp = s.sp := rfl
@[simp] theorem setKey_dt (k : Keypad) : (s.setKey k).dt = s.dt := rfl
@[simp] theorem setKey_st (k : Keypad) : (s.setKey k).st = s.st := rfl
@[simp] theorem setKey_mem (k : Keypad) : (s.setKey k).mem = s.mem := rfl
@[simp] theorem setKey_fb (k : Keypad) : (s.setKey k).fb = s.fb := rfl
@[simp] theorem setKey_key (k : Keypad) : (s.setKey k).key = k := rfl
@[simp] theorem setKey_loadEnd (k : Keypad) : (s.setKey k).loadEnd = s.loadEnd := rfl
@[simp] theorem setKey_phase (k : Keypad) : (s.setKey k).phase = s.phase := rfl
@[simp] theorem setKey_inputs (k : Keypad) : (s.setKey k).inputs = s.inputs := rfl
@[simp] theorem setKey_outputs (k : Keypad) : (s.setKey k).outputs = s.outputs := rfl
@[simp] theorem setKey_rnd (k : Keypad) : (s.setKey k).rnd = s.rnd := rfl
@[simp] theorem setKey_draws (k : Keypad) : (s.setKey k).draws = s.draws := rfl
@[simp] theorem setKey_reg (k : Keypad) (y : Reg) : (s.setKey k).reg y = s.reg y := rfl
@[simp] theorem setKey_slot (k : Keypad) (l : Fin 16) : (s.setKey k).slot l = s.slot l := rfl
@[simp] theorem setKey_readByte (k : Keypad) (c : Nat) : (s.setKey k).readByte c = s.readByte c := rfl
@[simp] theorem setKey_pixel (k : Keypad) (q : Pixel) : (s.setKey k).pixel q = s.pixel q := rfl

@[simp] theorem setLoadEnd_params (a : Word) : (s.setLoadEnd a).params = s.params := rfl
@[simp] theorem setLoadEnd_v (a : Word) : (s.setLoadEnd a).v = s.v := rfl
@[simp] theorem setLoadEnd_i (a : Word) : (s.setLoadEnd a).i = s.i := rfl
@[simp] theorem setLoadEnd_pc (a : Word) : (s.setLoadEnd a).pc = s.pc := rfl
@[simp] theorem setLoadEnd_stack (a : Word) : (s.setLoadEnd a).stack = s.stack := rfl
@[simp] theorem setLoadEnd_sp (a : Word) : (s.setLoadEnd a).sp = s.sp := rfl
@[simp] theorem setLoadEnd_dt (a : Word) : (s.setLoadEnd a).dt = s.dt := rfl
@[simp] theorem setLoadEnd_st (a : Word) : (s.setLoadEnd a).st = s.st := rfl
@[simp] theorem setLoadEnd_mem (a : Word) : (s.setLoadEnd a).mem = s.mem := rfl
@[simp] theorem setLoadEnd_fb (a : Word) : (s.setLoadEnd a).fb = s.fb := rfl
@[simp] theorem setLoadEnd_key (a : Word) : (s.setLoadEnd a).key = s.key := rfl
@[simp] theorem setLoadEnd_loadEnd (a : Word) : (s.setLoadEnd a).loadEnd = a := rfl
@[simp] theorem setLoadEnd_phase (a : Word) : (s.setLoadEnd a).phase = s.phase := rfl
@[simp] theorem setLoadEnd_inputs (a : Word) : (s.setLoadEnd a).inputs = s.inputs := rfl
@[simp] theorem setLoadEnd_outputs (a : Word) : (s.setLoadEnd a).outputs = s.outputs := rfl
@[simp] theorem setLoadEnd_rnd (a : Word) : (s.setLoadEnd a).rnd = s.rnd := rfl
@[simp] theorem setLoadEnd_draws (a : Word) : (s.setLoadEnd a).draws = s.draws := rfl
@[simp] theorem setLoadEnd_reg (a : Word) (y : Reg) : (s.setLoadEnd a).reg y = s.reg y := rfl
@[simp] theorem setLoadEnd_slot (a : Word) (l : Fin 16) : (s.setLoadEnd a).slot l = s.slot l := rfl
@[simp] theorem setLoadEnd_readByte (a : Word) (c : Nat) : (s.setLoadEnd a).readByte c = s.readByte c := rfl
@[simp] theorem setLoadEnd_pixel (a : Word) (q : Pixel) : (s.setLoadEnd a).pixel q = s.pixel q := rfl

@[simp] theorem setPhase_params (p : Phase) : (s.setPhase p).params = s.params := rfl
@[simp] theorem setPhase_v (p : Phase) : (s.setPhase p).v = s.v := rfl
@[simp] theorem setPhase_i (p : Phase) : (s.setPhase p).i = s.i := rfl
@[simp] theorem setPhase_pc (p : Phase) : (s.setPhase p).pc = s.pc := rfl
@[simp] theorem setPhase_stack (p : Phase) : (s.setPhase p).stack = s.stack := rfl
@[simp] theorem setPhase_sp (p : Phase) : (s.setPhase p).sp = s.sp := rfl
@[simp] theorem setPhase_dt (p : Phase) : (s.setPhase p).dt = s.dt := rfl
@[simp] theorem setPhase_st (p : Phase) : (s.setPhase p).st = s.st := rfl
@[simp] theorem setPhase_mem (p : Phase) : (s.setPhase p).mem = s.mem := rfl
@[simp] theorem setPhase_fb (p : Phase) : (s.setPhase p).fb = s.fb := rfl
@[simp] theorem setPhase_key (p : Phase) : (s.setPhase p).key = s.key := rfl
@[simp] theorem setPhase_loadEnd (p : Phase) : (s.setPhase p).loadEnd = s.loadEnd := rfl
@[simp] theorem setPhase_phase (p : Phase) : (s.setPhase p).phase = p := rfl
@[simp] theorem setPhase_inputs (p : Phase) : (s.setPhase p).inputs = s.inputs := rfl
@[simp] theorem setPhase_outputs (p : Phase) : (s.setPhase p).outputs = s.outputs := rfl
@[simp] theorem setPhase_rnd (p : Phase) : (s.setPhase p).rnd = s.rnd := rfl
@[simp] theorem setPhase_draws (p : Phase) : (s.setPhase p).draws = s.draws := rfl
@[simp] theorem setPhase_reg (p : Phase) (y : Reg) : (s.setPhase p).reg y = s.reg y := rfl
@[simp] theorem setPhase_slot (p : Phase) (l : Fin 16) : (s.setPhase p).slot l = s.slot l := rfl
@[simp] theorem setPhase_readByte (p : Phase) (c : Nat) : (s.setPhase p).readByte c = s.readByte c := rfl
@[simp] theorem setPhase_pixel (p : Phase) (q : Pixel) : (s.setPhase p).pixel q = s.pixel q := rfl

@[simp] theorem setInputs_params (es : List Event) : (s.setInputs es).params = s.params := rfl
@[simp] theorem setInputs_v (es : List Event) : (s.setInputs es).v = s.v := rfl
@[simp] theorem setInputs_i (es : List Event) : (s.setInputs es).i = s.i := rfl
@[simp] theorem setInputs_pc (es : List Event) : (s.setInputs es).pc = s.pc := rfl
@[simp] theorem setInputs_stack (es : List Event) : (s.setInputs es).stack = s.stack := rfl
@[simp] theorem setInputs_sp (es : List Event) : (s.setInputs es).sp = s.sp := rfl
@[simp] theorem setInputs_dt (es : List Event) : (s.setInputs es).dt = s.dt := rfl
@[simp] theorem setInputs_st (es : List Event) : (s.setInputs es).st = s.st := rfl
@[simp] theorem setInputs_mem (es : List Event) : (s.setInputs es).mem = s.mem := rfl
@[simp] theorem setInputs_fb (es : List Event) : (s.setInputs es).fb = s.fb := rfl
@[simp] theorem setInputs_key (es : List Event) : (s.setInputs es).key = s.key := rfl
@[simp] theorem setInputs_loadEnd (es : List Event) : (s.setInputs es).loadEnd = s.loadEnd := rfl
@[simp] theorem setInputs_phase (es : List Event) : (s.setInputs es).phase = s.phase := rfl
@[simp] theorem setInputs_inputs (es : List Event) : (s.setInputs es).inputs = es := rfl
@[simp] theorem setInputs_outputs (es : List Event) : (s.setInputs es).outputs = s.outputs := rfl
@[simp] theorem setInputs_rnd (es : List Event) : (s.setInputs es).rnd = s.rnd := rfl
@[simp] theorem setInputs_draws (es : List Event) : (s.setInputs es).draws = s.draws := rfl
@[simp] theorem setInputs_reg (es : List Event) (y : Reg) : (s.setInputs es).reg y = s.reg y := rfl
@[simp] theorem setInputs_slot (es : List Event) (l : Fin 16) : (s.setInputs es).slot l = s.slot l := rfl
@[simp] theorem setInputs_readByte (es : List Event) (c : Nat) : (s.setInputs es).readByte c = s.readByte c := rfl
@[simp] theorem setInputs_pixel (es : List Event) (q : Pixel) : (s.setInputs es).pixel q = s.pixel q := rfl

@[simp] theorem emit_params (o : Output) : (s.emit o).params = s.params := rfl
@[simp] theorem emit_v (o : Output) : (s.emit o).v = s.v := rfl
@[simp] theorem emit_i (o : Output) : (s.emit o).i = s.i := rfl
@[simp] theorem emit_pc (o : Output) : (s.emit o).pc = s.pc := rfl
@[simp] theorem emit_stack (o : Output) : (s.emit o).stack = s.stack := rfl
@[simp] theorem emit_sp (o : Output) : (s.emit o).sp = s.sp := rfl
@[simp] theorem emit_dt (o : Output) : (s.emit o).dt = s.dt := rfl
@[simp] theorem emit_st (o : Output) : (s.emit o).st = s.st := rfl
@[simp] theorem emit_mem (o : Output) : (s.emit o).mem = s.mem := rfl
@[simp] theorem emit_fb (o : Output) : (s.emit o).fb = s.fb := rfl
@[simp] theorem emit_key (o : Output) : (s.emit o).key = s.key := rfl
@[simp] theorem emit_loadEnd (o : Output) : (s.emit o).loadEnd = s.loadEnd := rfl
@[simp] theorem emit_phase (o : Output) : (s.emit o).phase = s.phase := rfl
@[simp] theorem emit_inputs (o : Output) : (s.emit o).inputs = s.inputs := rfl
@[simp] theorem emit_outputs (o : Output) : (s.emit o).outputs = s.outputs ++ [o] := rfl
@[simp] theorem emit_rnd (o : Output) : (s.emit o).rnd = s.rnd := rfl
@[simp] theorem emit_draws (o : Output) : (s.emit o).draws = s.draws := rfl
@[simp] theorem emit_reg (o : Output) (y : Reg) : (s.emit o).reg y = s.reg y := rfl
@[simp] theorem emit_slot (o : Output) (l : Fin 16) : (s.emit o).slot l = s.slot l := rfl
@[simp] theorem emit_readByte (o : Output) (c : Nat) : (s.emit o).readByte c = s.readByte c := rfl
@[simp] theorem emit_pixel (o : Output) (q : Pixel) : (s.emit o).pixel q = s.pixel q := rfl

@[simp] theorem setRnd_params (r : Byte) : (s.setRnd r).params = s.params := rfl
@[simp] theorem setRnd_v (r : Byte) : (s.setRnd r).v = s.v := rfl
@[simp] theorem setRnd_i (r : Byte) : (s.setRnd r).i = s.i := rfl
@[simp] theorem setRnd_pc (r : Byte) : (s.setRnd r).pc = s.pc := rfl
@[simp] theorem setRnd_stack (r : Byte) : (s.setRnd r).stack = s.stack := rfl
@[simp] theorem setRnd_sp (r : Byte) : (s.setRnd r).sp = s.sp := rfl
@[simp] theorem setRnd_dt (r : Byte) : (s.setRnd r).dt = s.dt := rfl
@[simp] theorem setRnd_st (r : Byte) : (s.setRnd r).st = s.st := rfl
@[simp] theorem setRnd_mem (r : Byte) : (s.setRnd r).mem = s.mem := rfl
@[simp] theorem setRnd_fb (r : Byte) : (s.setRnd r).fb = s.fb := rfl
@[simp] theorem setRnd_key (r : Byte) : (s.setRnd r).key = s.key := rfl
@[simp] theorem setRnd_loadEnd (r : Byte) : (s.setRnd r).loadEnd = s.loadEnd := rfl
@[simp] theorem setRnd_phase (r : Byte) : (s.setRnd r).phase = s.phase := rfl
@[simp] theorem setRnd_inputs (r : Byte) : (s.setRnd r).inputs = s.inputs := rfl
@[simp] theorem setRnd_outputs (r : Byte) : (s.setRnd r).outputs = s.outputs := rfl
@[simp] theorem setRnd_rnd (r : Byte) : (s.setRnd r).rnd = r := rfl
@[simp] theorem setRnd_draws (r : Byte) : (s.setRnd r).draws = s.draws := rfl
@[simp] theorem setRnd_reg (r : Byte) (y : Reg) : (s.setRnd r).reg y = s.reg y := rfl
@[simp] theorem setRnd_slot (r : Byte) (l : Fin 16) : (s.setRnd r).slot l = s.slot l := rfl
@[simp] theorem setRnd_readByte (r : Byte) (c : Nat) : (s.setRnd r).readByte c = s.readByte c := rfl
@[simp] theorem setRnd_pixel (r : Byte) (q : Pixel) : (s.setRnd r).pixel q = s.pixel q := rfl

@[simp] theorem setDraws_params (n : Nat) : (s.setDraws n).params = s.params := rfl
@[simp] theorem setDraws_v (n : Nat) : (s.setDraws n).v = s.v := rfl
@[simp] theorem setDraws_i (n : Nat) : (s.setDraws n).i = s.i := rfl
@[simp] theorem setDraws_pc (n : Nat) : (s.setDraws n).pc = s.pc := rfl
@[simp] theorem setDraws_stack (n : Nat) : (s.setDraws n).stack = s.stack := rfl
@[simp] theorem setDraws_sp (n : Nat) : (s.setDraws n).sp = s.sp := rfl
@[simp] theorem setDraws_dt (n : Nat) : (s.setDraws n).dt = s.dt := rfl
@[simp] theorem setDraws_st (n : Nat) : (s.setDraws n).st = s.st := rfl
@[simp] theorem setDraws_mem (n : Nat) : (s.setDraws n).mem = s.mem := rfl
@[simp] theorem setDraws_fb (n : Nat) : (s.setDraws n).fb = s.fb := rfl
@[simp] theorem setDraws_key (n : Nat) : (s.setDraws n).key = s.key := rfl
@[simp] theorem setDraws_loadEnd (n : Nat) : (s.setDraws n).loadEnd = s.loadEnd := rfl
@[simp] theorem setDraws_phase (n : Nat) : (s.setDraws n).phase = s.phase := rfl
@[simp] theorem setDraws_inputs (n : Nat) : (s.setDraws n).inputs = s.inputs := rfl
@[simp] theorem setDraws_outputs (n : Nat) : (s.setDraws n).outputs = s.outputs := rfl
@[simp] theorem setDraws_rnd (n : Nat) : (s.setDraws n).rnd = s.rnd := rfl
@[simp] theorem setDraws_draws (n : Nat) : (s.setDraws n).draws = n := rfl
@[simp] theorem setDraws_reg (n : Nat) (y : Reg) : (s.setDraws n).reg y = s.reg y := rfl
@[simp] theorem setDraws_slot (n : Nat) (l : Fin 16) : (s.setDraws n).slot l = s.slot l := rfl
@[simp] theorem setDraws_readByte (n : Nat) (c : Nat) : (s.setDraws n).readByte c = s.readByte c := rfl
@[simp] theorem setDraws_pixel (n : Nat) (q : Pixel) : (s.setDraws n).pixel q = s.pixel q := rfl

end Sys2Proof.Machine.State
end

