-- ==== Sys2Proof/Laws/Memory.lean ====
section
/-! SUPPORT. Memory: a read after a write, every operation keeps the canonical form, and what a block store does. -/

namespace Sys2Proof.Machine

variable (p : Config.Params) (m : Memory) (a a' : Nat) (b : Byte)

theorem Memory.read_filter_ne (h : a' ≠ a) : Memory.read p (m.filter (fun c => c.1 != a)) a' = Memory.read p m a' := by
  induction m with
  | nil => rfl
  | cons c rest ih =>
    by_cases hc : c.1 = a
    · simp [hc, Memory.read, ih, Ne.symm h]
    · simp [hc, Memory.read, ih]

theorem Memory.read_filter_self : Memory.read p (m.filter (fun c => c.1 != a)) a = Memory.initial p a := by
  induction m with
  | nil => rfl
  | cons c rest ih =>
    by_cases hc : c.1 = a
    · simp [hc, ih]
    · simp [hc, Memory.read, ih]

theorem Memory.read_insert_ne (h : a' ≠ a) : Memory.read p (Memory.insert m a b) a' = Memory.read p m a' := by
  induction m with
  | nil => simp [Memory.insert, Memory.read, Ne.symm h]
  | cons c rest ih =>
    unfold Memory.insert
    split
    · simp [Memory.read, Ne.symm h]
    · simp [Memory.read, ih]

theorem Memory.read_insert_self (h : ∀ c ∈ m, c.1 ≠ a) : Memory.read p (Memory.insert m a b) a = b := by
  induction m with
  | nil => simp [Memory.insert, Memory.read]
  | cons c rest ih =>
    have hc := h c (by simp)
    unfold Memory.insert
    split
    · simp [Memory.read]
    · simpa [Memory.read, hc] using ih (fun d hd => h d (by simp [hd]))

/-- A read of the written address gives the written byte, in every memory. -/
@[simp] theorem Memory.read_write_self : Memory.read p (Memory.write p m a b) a = b := by
  unfold Memory.write
  simp only
  split
  · next h => rw [Memory.read_filter_self, h]
  · exact Memory.read_insert_self _ _ _ _ (by simp)

/-- A read of any other address gives what it gave before. -/
theorem Memory.read_write_ne (h : a' ≠ a) : Memory.read p (Memory.write p m a b) a' = Memory.read p m a' := by
  unfold Memory.write
  simp only
  split
  · exact Memory.read_filter_ne _ _ _ _ h
  · rw [Memory.read_insert_ne _ _ _ _ _ h, Memory.read_filter_ne _ _ _ _ h]

theorem Memory.mem_insert (c : Host.Cell) : c ∈ Memory.insert m a b ↔ c = (a, b) ∨ c ∈ m := by
  induction m with
  | nil => simp [Memory.insert]
  | cons d rest ih =>
    unfold Memory.insert
    split
    · simp
    · simp [ih]; tauto

theorem Memory.pairwise_insert (hm : m.Pairwise (fun c d => c.1 < d.1)) (h : ∀ c ∈ m, c.1 ≠ a) :
    (Memory.insert m a b).Pairwise (fun c d => c.1 < d.1) := by
  induction m with
  | nil => simp [Memory.insert]
  | cons c rest ih =>
    have hc := h c (by simp)
    obtain ⟨h1, h2⟩ := List.pairwise_cons.1 hm
    unfold Memory.insert
    split
    · next hlt =>
      refine List.pairwise_cons.2 ⟨fun d hd => ?_, hm⟩
      rcases List.mem_cons.1 hd with rfl | hd
      · exact hlt
      · exact lt_trans hlt (h1 d hd)
    · next hlt =>
      refine List.pairwise_cons.2 ⟨fun d hd => ?_, ih h2 (fun d hd => h d (by simp [hd]))⟩
      rcases (Memory.mem_insert _ _ _ _).1 hd with rfl | hd
      · simp only at *; omega
      · exact h1 d hd

/-- A write inside the address space keeps the canonical form. -/
theorem Memory.wf_write (hm : Memory.wf p m) (ha : a < Config.memSize) : Memory.wf p (Memory.write p m a b) := by
  obtain ⟨h1, h2⟩ := hm
  unfold Memory.write
  simp only
  have hf : (m.filter (fun c => c.1 != a)).Pairwise (fun c d => c.1 < d.1) := h1.filter _
  split
  · exact ⟨hf, fun c hc => h2 c (List.mem_of_mem_filter hc)⟩
  · next hb =>
    refine ⟨Memory.pairwise_insert _ _ _ hf (by simp), fun c hc => ?_⟩
    rcases (Memory.mem_insert _ _ _ _).1 hc with rfl | hc
    · exact ⟨ha, hb⟩
    · exact h2 c (List.mem_of_mem_filter hc)

/-- The memory of a new block is in canonical form. -/
theorem Memory.wf_nil : Memory.wf p [] := by simp [Memory.wf]

namespace State

variable (s : State)

@[simp] theorem storeByte_readByte_self : (s.storeByte a b).readByte a = b := by
  simp [State.storeByte, State.readByte]

theorem storeByte_readByte_ne (h : a' ≠ a) : (s.storeByte a b).readByte a' = s.readByte a' := by
  simp [State.storeByte, State.readByte, Memory.read_write_ne _ _ _ _ _ h]

/-- A block store changes the listed bytes of memory only: it is `s` with another memory. -/
theorem storeBytes_eq_setMem (bs : List Byte) : s.storeBytes a bs = s.setMem (s.storeBytes a bs).mem := by
  induction bs generalizing s a with
  | nil => rfl
  | cons b bs ih =>
    rw [State.storeBytes, ih]
    rfl

/-- Everything a block store does to memory: the bytes stored read back, every other byte is as before. -/
theorem storeBytes_readByte (bs : List Byte) :
    (s.storeBytes a bs).readByte a' =
      if h : a ≤ a' ∧ a' < a + bs.length then bs[a' - a]'(by omega) else s.readByte a' := by
  induction bs generalizing s a with
  | nil => simp [State.storeBytes]
  | cons b bs ih =>
    rw [State.storeBytes, ih]
    by_cases h0 : a' = a
    · subst h0; simp
    · by_cases h1 : a + 1 ≤ a' ∧ a' < a + 1 + bs.length
      · have h2 : a ≤ a' ∧ a' < a + (b :: bs).length := by simp; omega
        rw [dif_pos h1, dif_pos h2]
        have e : a' - a = (a' - (a + 1)) + 1 := by omega
        simp [e]
      · have h2 : ¬ (a ≤ a' ∧ a' < a + (b :: bs).length) := by simp; omega
        rw [dif_neg h1, dif_neg h2, storeByte_readByte_ne _ _ _ _ h0]

/-- A block store inside the address space keeps the canonical form. -/
theorem storeBytes_memWf (bs : List Byte) (hm : Memory.wf s.params s.mem) (h : a + bs.length ≤ Config.memSize) :
    Memory.wf s.params (s.storeBytes a bs).mem := by
  induction bs generalizing s a with
  | nil => exact hm
  | cons b bs ih =>
    simp only [List.length_cons] at h
    exact ih (a + 1) (s.storeByte a b) (Memory.wf_write _ _ _ _ hm (by omega)) (by omega)

@[simp] theorem readBytes_length (n : Nat) : (s.readBytes a n).length = n := by simp [State.readBytes]

@[simp] theorem readBytes_getElem (n k : Nat) (h : k < (s.readBytes a n).length) :
    (s.readBytes a n)[k] = s.readByte (a + k) := by simp [State.readBytes]

end State

end Sys2Proof.Machine
end

