-- ==== Sys2Proof/Laws/Screen.lean ====
section
/-! SUPPORT. The framebuffer: a test after a write, the canonical form, and everything a sprite does. -/

namespace Sys2Proof.Machine

variable (fb : Framebuffer) (p q : Pixel)

theorem Framebuffer.mem_insert : q ∈ Framebuffer.insert fb p ↔ q = p ∨ q ∈ fb := by
  induction fb with
  | nil => simp [Framebuffer.insert]
  | cons r rest ih =>
    unfold Framebuffer.insert
    split
    · simp
    · simp [ih]; tauto

/-- A write sets the one pixel and leaves every other as it was. -/
@[simp] theorem Framebuffer.test_write (on : Bool) :
    Framebuffer.test (Framebuffer.write fb p on) q = if q = p then on else Framebuffer.test fb q := by
  cases on <;> by_cases h : q = p <;> simp [Framebuffer.test, Framebuffer.write, Framebuffer.mem_insert, h]

theorem Pixel.before_total (h : p ≠ q) (hb : ¬ Pixel.before p q = true) : Pixel.before q p = true := by
  have h' : ¬ (p.1 = q.1 ∧ p.2 = q.2) := fun e => h (Prod.ext e.1 e.2)
  simp [Pixel.before] at *
  omega

theorem Pixel.before_trans (r : Pixel) (h1 : Pixel.before p q = true) (h2 : Pixel.before q r = true) :
    Pixel.before p r = true := by
  simp [Pixel.before] at *
  omega

theorem Framebuffer.pairwise_insert (hm : fb.Pairwise (fun q r => Pixel.before q r = true)) (h : ∀ q ∈ fb, q ≠ p) :
    (Framebuffer.insert fb p).Pairwise (fun q r => Pixel.before q r = true) := by
  induction fb with
  | nil => simp [Framebuffer.insert]
  | cons c rest ih =>
    have hc := h c (by simp)
    obtain ⟨h1, h2⟩ := List.pairwise_cons.1 hm
    unfold Framebuffer.insert
    split
    · next hlt =>
      refine List.pairwise_cons.2 ⟨fun d hd => ?_, hm⟩
      rcases List.mem_cons.1 hd with rfl | hd
      · exact hlt
      · exact Pixel.before_trans _ _ _ hlt (h1 d hd)
    · next hlt =>
      refine List.pairwise_cons.2 ⟨fun d hd => ?_, ih h2 (fun d hd => h d (by simp [hd]))⟩
      rcases (Framebuffer.mem_insert _ _ _).1 hd with rfl | hd
      · exact Pixel.before_total _ _ (Ne.symm hc) hlt
      · exact h1 d hd

/-- A write inside the grid keeps the canonical form. -/
theorem Framebuffer.wf_write (ps : Config.Params) (on : Bool) (hf : Framebuffer.wf ps fb)
    (hp : p.1 < ps.fbWidth ∧ p.2 < ps.fbHeight) : Framebuffer.wf ps (Framebuffer.write fb p on) := by
  obtain ⟨h1, h2⟩ := hf
  have hf : (fb.filter (fun q => q != p)).Pairwise (fun q r => Pixel.before q r = true) := h1.filter _
  unfold Framebuffer.write
  simp only
  split
  · refine ⟨Framebuffer.pairwise_insert _ _ hf (by simp), fun c hc => ?_⟩
    rcases (Framebuffer.mem_insert _ _ _).1 hc with rfl | hc
    · exact hp
    · exact h2 c (List.mem_of_mem_filter hc)
  · exact ⟨hf, fun c hc => h2 c (List.mem_of_mem_filter hc)⟩

/-- A pixel after a list of inversions: inverted once per occurrence in the list. -/
theorem test_foldl_drawPixel (hits : List Pixel) (acc : Framebuffer × Bool) :
    Framebuffer.test (hits.foldl drawPixel acc).1 q = (Framebuffer.test acc.1 q ^^ decide (hits.count q % 2 = 1)) := by
  induction hits generalizing acc with
  | nil => simp
  | cons h rest ih =>
    rw [List.foldl_cons, ih, List.count_cons]
    simp only [drawPixel, Framebuffer.test_write]
    by_cases e : q = h
    · subst e
      rcases Nat.mod_two_eq_zero_or_one (rest.count q) with h2 | h2 <;>
        simp [h2, Nat.add_mod]
    · simp [e, Ne.symm e]

theorem test_drawPixels (hits : List Pixel) :
    Framebuffer.test (drawPixels fb hits).1 q = (Framebuffer.test fb q ^^ decide (hits.count q % 2 = 1)) :=
  test_foldl_drawPixel q hits (fb, false)

theorem parity_cons (c : Pixel) (hits : List Pixel) (acc : Framebuffer × Bool) :
    (Framebuffer.test (drawPixel acc c).1 q ^^ decide (hits.count q % 2 = 1)) =
      (Framebuffer.test acc.1 q ^^ decide ((c :: hits).count q % 2 = 1)) := by
  rw [← test_foldl_drawPixel, ← test_foldl_drawPixel, List.foldl_cons]

/-- The collision after a list of inversions: some bit met a pixel that was on when it was applied. -/
theorem collision_foldl_drawPixel (hits : List Pixel) (acc : Framebuffer × Bool) :
    (hits.foldl drawPixel acc).2 = true ↔
      acc.2 = true ∨ ∃ k, ∃ h : k < hits.length,
        (Framebuffer.test acc.1 hits[k] ^^ decide ((hits.take k).count hits[k] % 2 = 1)) = true := by
  induction hits generalizing acc with
  | nil => simp
  | cons c rest ih =>
    have hc : (drawPixel acc c).2 = (acc.2 || Framebuffer.test acc.1 c) := rfl
    rw [List.foldl_cons, ih, hc, Bool.or_eq_true]
    constructor
    · rintro ((h | h) | ⟨k, hk, h⟩)
      · exact .inl h
      · exact .inr ⟨0, by simp, by simpa using h⟩
      · exact .inr ⟨k + 1, by simpa using hk, by rw [parity_cons] at h; exact h⟩
    · rintro (h | ⟨_ | k, hk, h⟩)
      · exact .inl (.inl h)
      · exact .inl (.inr (by simpa using h))
      · exact .inr ⟨k, by simpa using hk, by rw [parity_cons]; exact h⟩

theorem collision_drawPixels (hits : List Pixel) :
    (drawPixels fb hits).2 = true ↔
      ∃ k, ∃ h : k < hits.length,
        (Framebuffer.test fb hits[k] ^^ decide ((hits.take k).count hits[k] % 2 = 1)) = true := by
  simpa [drawPixels] using collision_foldl_drawPixel hits (fb, false)

/-- Drawing the same cells twice restores every pixel. -/
theorem test_second_drawPixels (hits : List Pixel) :
    Framebuffer.test (drawPixels (drawPixels fb hits).1 hits).1 q = Framebuffer.test fb q := by
  simp [test_drawPixels]

/-- The collision of a draw whose cells are all different: some cell was on before it. -/
theorem collision_drawPixels_of_nodup (hits : List Pixel) (hn : hits.Nodup) :
    (drawPixels fb hits).2 = true ↔ ∃ p ∈ hits, Framebuffer.test fb p = true := by
  have h0 (k : Nat) (h : k < hits.length) : (hits.take k).count hits[k] = 0 := by
    rw [List.count_eq_zero, List.mem_take_iff_getElem]
    rintro ⟨j, hj, e⟩
    have := (List.Nodup.getElem_inj_iff hn).1 e
    omega
  rw [collision_drawPixels]
  constructor
  · rintro ⟨k, h, e⟩
    exact ⟨_, List.getElem_mem h, by simpa [h0 k h] using e⟩
  · rintro ⟨p, hp, e⟩
    obtain ⟨k, h, rfl⟩ := List.getElem_of_mem hp
    exact ⟨k, h, by simpa [h0 k h] using e⟩

/-- What the pixel and flag laws of a draw (44_display.md R171, R173) force on the second of two draws of the same cells, all
different: a collision exactly when some cell was off before the first (log 19, the conflict with R176). -/
theorem collision_second_drawPixels (hits : List Pixel) (hn : hits.Nodup) :
    (drawPixels (drawPixels fb hits).1 hits).2 = true ↔ ∃ p ∈ hits, Framebuffer.test fb p = false := by
  rw [collision_drawPixels_of_nodup _ hits hn]
  refine exists_congr fun p => and_congr_right fun hp => ?_
  simp [test_drawPixels, List.count_eq_one_of_mem hn hp]

/-- Drawing inside the grid keeps the canonical form. -/
theorem wf_drawPixels (ps : Config.Params) (hits : List Pixel) (hf : Framebuffer.wf ps fb)
    (hh : ∀ p ∈ hits, p.1 < ps.fbWidth ∧ p.2 < ps.fbHeight) : Framebuffer.wf ps (drawPixels fb hits).1 := by
  have : ∀ acc : Framebuffer × Bool, Framebuffer.wf ps acc.1 → Framebuffer.wf ps (hits.foldl drawPixel acc).1 := by
    induction hits with
    | nil => exact fun acc h => h
    | cons c rest ih =>
      intro acc h
      exact ih (fun p hp => hh p (by simp [hp])) _ (Framebuffer.wf_write _ _ _ _ h (hh c (by simp)))
  exact this _ hf

/-- Every cell of a sprite lies in the grid, when the grid has one (44_display.md R172). -/
theorem spriteHits_inside (ps : Config.Params) (hv : 1 ≤ ps.fbWidth ∧ 1 ≤ ps.fbHeight) (x0 y0 : Nat) (rows : List Byte) :
    ∀ p ∈ spriteHits ps x0 y0 rows, p.1 < ps.fbWidth ∧ p.2 < ps.fbHeight := by
  induction rows generalizing y0 with
  | nil => simp [spriteHits]
  | cons b rest ih =>
    intro p hp
    simp only [spriteHits, List.mem_append] at hp
    rcases hp with hp | hp
    · simp only [rowHits, List.mem_filterMap] at hp
      obtain ⟨j, -, hj⟩ := hp
      split at hj
      · cases hj
        exact ⟨Nat.mod_lt _ hv.1, Nat.mod_lt _ hv.2⟩
      · cases hj
    · exact ih _ p hp

/-- The sprite's cells row by row, each row by its own index. -/
theorem spriteHits_eq_flatMap (ps : Config.Params) (x0 y0 : Nat) (rows : List Byte) :
    spriteHits ps x0 y0 rows =
      (List.range rows.length).flatMap fun r => rowHits ps x0 ((y0 + r) % ps.fbHeight) (rows.getD r 0) := by
  induction rows generalizing y0 with
  | nil => rfl
  | cons b rest ih =>
    rw [spriteHits, ih, List.length_cons, List.range_succ_eq_map]
    simp [List.flatMap_cons, List.flatMap_map, Nat.add_assoc, Nat.add_comm 1]

end Sys2Proof.Machine
end

