-- ==== Sys2Proof/Laws/Ops.lean ====
section
/-! SUPPORT. For each shared operation, what it does: registers, stack, program counter, faults, block transfers, keys, and
what one event can answer. -/

namespace Sys2Proof.Machine

namespace State

variable (s : State)

/-! ### Derived updates in terms of the primitive ones -/

@[simp] theorem advance_eq : s.advance = s.setPc (s.pc + 2) := rfl
@[simp] theorem nextPc_eq : s.nextPc = s.pc + 2 := rfl
@[simp] theorem skipIf_eq (c : Bool) : s.skipIf c = s.setPc (if c then s.pc + 4 else s.pc + 2) := rfl
@[simp] theorem raiseFault_eq (k : FaultKind) (w : Option Word) :
    s.raiseFault k w = s.setPhase (.faulted ⟨k, s.pc, w⟩) := rfl
@[simp] theorem indexAddress_eq : s.indexAddress = s.i.toNat := rfl

/-- A register after a register write. -/
@[simp] theorem setReg_reg (x y : Reg) (b : Byte) : (s.setReg x b).reg y = if y = x then b else s.reg y := by
  simp only [State.reg, State.setReg, Vector.getElem_set]
  by_cases h : x = y
  · subst h; simp
  · have h1 : x.val ≠ y.val := fun e => h (Fin.ext e)
    simp [h1, Ne.symm h]

/-- A slot after a slot write. -/
@[simp] theorem setSlot_slot (j k : Fin 16) (a : Word) : (s.setSlot j a).slot k = if k = j then a else s.slot k := by
  simp only [State.slot, State.setSlot, Vector.getElem_set]
  by_cases h : j = k
  · subst h; simp
  · have h1 : j.val ≠ k.val := fun e => h (Fin.ext e)
    simp [h1, Ne.symm h]

/-- A result with its flag: the flag is the final value of VF (10_state.md R22). -/
@[simp] theorem setFlagged_reg (x y : Reg) (r : Byte) (f : Bool) :
    (s.setFlagged x r f).reg y = if y = VF then flagByte f else if y = x then r else s.reg y := by
  simp [State.setFlagged]


/-! ### What a flagged write and a block transfer leave alone -/

@[simp] theorem setFlagged_params (x : Reg) (r : Byte) (f : Bool) : (s.setFlagged x r f).params = s.params := rfl
@[simp] theorem setFlagged_i (x : Reg) (r : Byte) (f : Bool) : (s.setFlagged x r f).i = s.i := rfl
@[simp] theorem setFlagged_pc (x : Reg) (r : Byte) (f : Bool) : (s.setFlagged x r f).pc = s.pc := rfl
@[simp] theorem setFlagged_stack (x : Reg) (r : Byte) (f : Bool) : (s.setFlagged x r f).stack = s.stack := rfl
@[simp] theorem setFlagged_sp (x : Reg) (r : Byte) (f : Bool) : (s.setFlagged x r f).sp = s.sp := rfl
@[simp] theorem setFlagged_dt (x : Reg) (r : Byte) (f : Bool) : (s.setFlagged x r f).dt = s.dt := rfl
@[simp] theorem setFlagged_st (x : Reg) (r : Byte) (f : Bool) : (s.setFlagged x r f).st = s.st := rfl
@[simp] theorem setFlagged_mem (x : Reg) (r : Byte) (f : Bool) : (s.setFlagged x r f).mem = s.mem := rfl
@[simp] theorem setFlagged_fb (x : Reg) (r : Byte) (f : Bool) : (s.setFlagged x r f).fb = s.fb := rfl
@[simp] theorem setFlagged_key (x : Reg) (r : Byte) (f : Bool) : (s.setFlagged x r f).key = s.key := rfl
@[simp] theorem setFlagged_loadEnd (x : Reg) (r : Byte) (f : Bool) : (s.setFlagged x r f).loadEnd = s.loadEnd := rfl
@[simp] theorem setFlagged_phase (x : Reg) (r : Byte) (f : Bool) : (s.setFlagged x r f).phase = s.phase := rfl
@[simp] theorem setFlagged_inputs (x : Reg) (r : Byte) (f : Bool) : (s.setFlagged x r f).inputs = s.inputs := rfl
@[simp] theorem setFlagged_outputs (x : Reg) (r : Byte) (f : Bool) : (s.setFlagged x r f).outputs = s.outputs := rfl
@[simp] theorem setFlagged_rnd (x : Reg) (r : Byte) (f : Bool) : (s.setFlagged x r f).rnd = s.rnd := rfl
@[simp] theorem setFlagged_draws (x : Reg) (r : Byte) (f : Bool) : (s.setFlagged x r f).draws = s.draws := rfl
@[simp] theorem setFlagged_slot (x : Reg) (r : Byte) (f : Bool) (j : Fin 16) : (s.setFlagged x r f).slot j = s.slot j := rfl
@[simp] theorem setFlagged_readByte (x : Reg) (r : Byte) (f : Bool) (c : Nat) : (s.setFlagged x r f).readByte c = s.readByte c := rfl
@[simp] theorem setFlagged_pixel (x : Reg) (r : Byte) (f : Bool) (q : Pixel) : (s.setFlagged x r f).pixel q = s.pixel q := rfl

@[simp] theorem storeBytes_params (a : Nat) (bs : List Byte) : (s.storeBytes a bs).params = s.params := by
  rw [storeBytes_eq_setMem]; rfl
@[simp] theorem storeBytes_v (a : Nat) (bs : List Byte) : (s.storeBytes a bs).v = s.v := by
  rw [storeBytes_eq_setMem]; rfl
@[simp] theorem storeBytes_i (a : Nat) (bs : List Byte) : (s.storeBytes a bs).i = s.i := by
  rw [storeBytes_eq_setMem]; rfl
@[simp] theorem storeBytes_pc (a : Nat) (bs : List Byte) : (s.storeBytes a bs).pc = s.pc := by
  rw [storeBytes_eq_setMem]; rfl
@[simp] theorem storeBytes_stack (a : Nat) (bs : List Byte) : (s.storeBytes a bs).stack = s.stack := by
  rw [storeBytes_eq_setMem]; rfl
@[simp] theorem storeBytes_sp (a : Nat) (bs : List Byte) : (s.storeBytes a bs).sp = s.sp := by
  rw [storeBytes_eq_setMem]; rfl
@[simp] theorem storeBytes_dt (a : Nat) (bs : List Byte) : (s.storeBytes a bs).dt = s.dt := by
  rw [storeBytes_eq_setMem]; rfl
@[simp] theorem storeBytes_st (a : Nat) (bs : List Byte) : (s.storeBytes a bs).st = s.st := by
  rw [storeBytes_eq_setMem]; rfl
@[simp] theorem storeBytes_fb (a : Nat) (bs : List Byte) : (s.storeBytes a bs).fb = s.fb := by
  rw [storeBytes_eq_setMem]; rfl
@[simp] theorem storeBytes_key (a : Nat) (bs : List Byte) : (s.storeBytes a bs).key = s.key := by
  rw [storeBytes_eq_setMem]; rfl
@[simp] theorem storeBytes_loadEnd (a : Nat) (bs : List Byte) : (s.storeBytes a bs).loadEnd = s.loadEnd := by
  rw [storeBytes_eq_setMem]; rfl
@[simp] theorem storeBytes_phase (a : Nat) (bs : List Byte) : (s.storeBytes a bs).phase = s.phase := by
  rw [storeBytes_eq_setMem]; rfl
@[simp] theorem storeBytes_inputs (a : Nat) (bs : List Byte) : (s.storeBytes a bs).inputs = s.inputs := by
  rw [storeBytes_eq_setMem]; rfl
@[simp] theorem storeBytes_outputs (a : Nat) (bs : List Byte) : (s.storeBytes a bs).outputs = s.outputs := by
  rw [storeBytes_eq_setMem]; rfl
@[simp] theorem storeBytes_rnd (a : Nat) (bs : List Byte) : (s.storeBytes a bs).rnd = s.rnd := by
  rw [storeBytes_eq_setMem]; rfl
@[simp] theorem storeBytes_draws (a : Nat) (bs : List Byte) : (s.storeBytes a bs).draws = s.draws := by
  rw [storeBytes_eq_setMem]; rfl
@[simp] theorem storeBytes_slot (a : Nat) (bs : List Byte) (j : Fin 16) : (s.storeBytes a bs).slot j = s.slot j := by
  rw [storeBytes_eq_setMem]; rfl
@[simp] theorem storeBytes_reg (a : Nat) (bs : List Byte) (y : Reg) : (s.storeBytes a bs).reg y = s.reg y := by
  rw [storeBytes_eq_setMem]; rfl
@[simp] theorem storeBytes_pixel (a : Nat) (bs : List Byte) (q : Pixel) : (s.storeBytes a bs).pixel q = s.pixel q := by
  rw [storeBytes_eq_setMem]; rfl

/-- A block load is `s` with other registers. -/
theorem loadRegs_eq (a : Nat) (ks : List Reg) : s.loadRegs a ks = { s with v := (s.loadRegs a ks).v } := by
  have h : ∀ t : State, (ks.foldl (fun t k => t.setReg k (s.readByte (a + k.val))) t) =
      { t with v := (ks.foldl (fun t k => t.setReg k (s.readByte (a + k.val))) t).v } := by
    induction ks with
    | nil => intro t; rfl
    | cons k rest ih =>
      intro t
      rw [List.foldl_cons, ih]
      rfl
  exact h s

/-- Everything a block load does to the registers. -/
@[simp] theorem loadRegs_reg (a : Nat) (ks : List Reg) (y : Reg) :
    (s.loadRegs a ks).reg y = if y ∈ ks then s.readByte (a + y.val) else s.reg y := by
  have h : ∀ t : State, (ks.foldl (fun t k => t.setReg k (s.readByte (a + k.val))) t).reg y =
      if y ∈ ks then s.readByte (a + y.val) else t.reg y := by
    induction ks with
    | nil => intro t; rfl
    | cons k rest ih =>
      intro t
      rw [List.foldl_cons, ih]
      by_cases h1 : y ∈ rest <;> by_cases h2 : y = k <;> simp [h1, h2]
  exact h s

@[simp] theorem loadRegs_params (a : Nat) (ks : List Reg) : (s.loadRegs a ks).params = s.params := by
  rw [loadRegs_eq]
@[simp] theorem loadRegs_i (a : Nat) (ks : List Reg) : (s.loadRegs a ks).i = s.i := by
  rw [loadRegs_eq]
@[simp] theorem loadRegs_pc (a : Nat) (ks : List Reg) : (s.loadRegs a ks).pc = s.pc := by
  rw [loadRegs_eq]
@[simp] theorem loadRegs_stack (a : Nat) (ks : List Reg) : (s.loadRegs a ks).stack = s.stack := by
  rw [loadRegs_eq]
@[simp] theorem loadRegs_sp (a : Nat) (ks : List Reg) : (s.loadRegs a ks).sp = s.sp := by
  rw [loadRegs_eq]
@[simp] theorem loadRegs_dt (a : Nat) (ks : List Reg) : (s.loadRegs a ks).dt = s.dt := by
  rw [loadRegs_eq]
@[simp] theorem loadRegs_st (a : Nat) (ks : List Reg) : (s.loadRegs a ks).st = s.st := by
  rw [loadRegs_eq]
@[simp] theorem loadRegs_mem (a : Nat) (ks : List Reg) : (s.loadRegs a ks).mem = s.mem := by
  rw [loadRegs_eq]
@[simp] theorem loadRegs_fb (a : Nat) (ks : List Reg) : (s.loadRegs a ks).fb = s.fb := by
  rw [loadRegs_eq]
@[simp] theorem loadRegs_key (a : Nat) (ks : List Reg) : (s.loadRegs a ks).key = s.key := by
  rw [loadRegs_eq]
@[simp] theorem loadRegs_loadEnd (a : Nat) (ks : List Reg) : (s.loadRegs a ks).loadEnd = s.loadEnd := by
  rw [loadRegs_eq]
@[simp] theorem loadRegs_phase (a : Nat) (ks : List Reg) : (s.loadRegs a ks).phase = s.phase := by
  rw [loadRegs_eq]
@[simp] theorem loadRegs_inputs (a : Nat) (ks : List Reg) : (s.loadRegs a ks).inputs = s.inputs := by
  rw [loadRegs_eq]
@[simp] theorem loadRegs_outputs (a : Nat) (ks : List Reg) : (s.loadRegs a ks).outputs = s.outputs := by
  rw [loadRegs_eq]
@[simp] theorem loadRegs_rnd (a : Nat) (ks : List Reg) : (s.loadRegs a ks).rnd = s.rnd := by
  rw [loadRegs_eq]
@[simp] theorem loadRegs_draws (a : Nat) (ks : List Reg) : (s.loadRegs a ks).draws = s.draws := by
  rw [loadRegs_eq]
@[simp] theorem loadRegs_slot (a : Nat) (ks : List Reg) (j : Fin 16) : (s.loadRegs a ks).slot j = s.slot j := by
  rw [loadRegs_eq]; rfl
@[simp] theorem loadRegs_readByte (a : Nat) (ks : List Reg) (c : Nat) : (s.loadRegs a ks).readByte c = s.readByte c := by
  rw [loadRegs_eq]; rfl
@[simp] theorem loadRegs_pixel (a : Nat) (ks : List Reg) (q : Pixel) : (s.loadRegs a ks).pixel q = s.pixel q := by
  rw [loadRegs_eq]; rfl

end State

/-- The registers of a block transfer are those up to `x`. -/
@[simp] theorem mem_regsUpTo (x y : Reg) : y ∈ regsUpTo x ↔ y ≤ x := by simp [regsUpTo]

theorem regsUpTo_eq (x : Reg) : (regsUpTo x).map Fin.val = List.range (x.val + 1) := by
  revert x; decide

/-- There are `x + 1` of them. -/
@[simp] theorem regsUpTo_length (x : Reg) : (regsUpTo x).length = x.val + 1 := by
  simpa using congrArg List.length (regsUpTo_eq x)

/-- The `k`-th of them is V[k]. -/
theorem regsUpTo_getElem (x : Reg) (k : Nat) (h : k < (regsUpTo x).length) : (regsUpTo x)[k].val = k := by
  have e := congrArg (fun l => l[k]?) (regsUpTo_eq x)
  have h2 : k < x.val + 1 := by simpa using h
  simpa [h, h2] using e

theorem inBounds_iff (a n : Nat) : inBounds a n = true ↔ n = 0 ∨ a + n ≤ 4096 := by simp [inBounds]

/-- A guarded access that fits goes on. -/
theorem guardAccess_fits (s : State) (i : Instr) (a n : Nat) (k : State) (h : n = 0 ∨ a + n ≤ 4096) :
    s.guardAccess i a n k = .next k := by
  simp [State.guardAccess, (inBounds_iff a n).2 h]

/-- A guarded access that does not fit takes the fault and nothing else. -/
theorem guardAccess_faults (s : State) (i : Instr) (a n : Nat) (k : State) (h : 0 < n ∧ 4096 < a + n) :
    s.guardAccess i a n k = .next (s.setPhase (.faulted ⟨.memoryOutOfBounds, s.pc, some (encode i)⟩)) := by
  have : inBounds a n = false := by
    rw [← Bool.not_eq_true, inBounds_iff]; omega
  simp [State.guardAccess, this]

/-- A guarded access does one of the two. -/
theorem guardAccess_cases (s : State) (i : Instr) (a n : Nat) (k : State) :
    (s.guardAccess i a n k = .next k ∧ (n = 0 ∨ a + n ≤ 4096)) ∨
    (s.guardAccess i a n k = .next (s.setPhase (.faulted ⟨.memoryOutOfBounds, s.pc, some (encode i)⟩)) ∧
      0 < n ∧ 4096 < a + n) := by
  by_cases h : n = 0 ∨ a + n ≤ 4096
  · exact .inl ⟨guardAccess_fits s i a n k h, h⟩
  · exact .inr ⟨guardAccess_faults s i a n k (by omega), by omega⟩

/-- A push with room. -/
theorem push_of_lt (s : State) (a : Word) (h : s.sp.val < 16) :
    s.push? a = some ((s.setSlot ⟨s.sp.val, h⟩ a).setSp ⟨s.sp.val + 1, Nat.succ_lt_succ h⟩) := by
  simp [State.push?, h]

/-- A push without room. -/
theorem push_full (s : State) (a : Word) (h : s.sp.val = 16) : s.push? a = none := by
  simp [State.push?, h]

/-- A pop with an entry. -/
theorem pop_of_pos (s : State) (h : 0 < s.sp.val) :
    s.pop? = some (s.slot ⟨s.sp.val - 1, by omega⟩, s.setSp ⟨s.sp.val - 1, by omega⟩) := by
  simp [State.pop?, h]

/-- A pop without an entry. -/
theorem pop_empty (s : State) (h : s.sp.val = 0) : s.pop? = none := by
  simp [State.pop?, h]

/-- The press edges are the keys down now and not before. -/
@[simp] theorem getLsbD_pressEdges (old new : Keypad) (k : Nat) :
    (pressEdges old new).getLsbD k = (new.getLsbD k && !old.getLsbD k) := by
  by_cases h : k < 16
  · simp [pressEdges, h]
  · simp [pressEdges, BitVec.getLsbD_of_ge _ _ (Nat.le_of_not_lt h)]

theorem finRange_sixteen_getElem (k : Nat) (h : k < (List.finRange 16).length) : (List.finRange 16)[k].val = k := by
  simp

/-- The lowest key of a set: it is in the set and no lower key is. -/
theorem lowestKey_eq_some_iff (e : Keypad) (k : Key) :
    lowestKey e = some k ↔ e.getLsbD k.val = true ∧ ∀ j : Key, j < k → e.getLsbD j.val = false := by
  unfold lowestKey
  rw [List.find?_eq_some_iff_getElem]
  constructor
  · rintro ⟨h1, n, hn, h2, h3⟩
    have hk : k.val = n := by rw [← h2, finRange_sixteen_getElem]
    refine ⟨h1, fun j hj => ?_⟩
    have := h3 j.val (by rw [← hk]; exact hj)
    simpa using this
  · rintro ⟨h1, h2⟩
    refine ⟨h1, k.val, by simp, by simp, fun j hj => ?_⟩
    have := h2 ⟨j, by omega⟩ (by exact hj)
    simpa using this

/-- No key of a set: the set is empty. -/
theorem lowestKey_eq_none_iff (e : Keypad) : lowestKey e = none ↔ ∀ k : Key, e.getLsbD k.val = false := by
  simp [lowestKey]

/-! ### The fetch, and the bounds of valid parameters -/

/-- A fetch with both bytes inside memory is their word (20_memory.md R52). -/
theorem fetchWord_of_lt (s : State) (h : s.pc.toNat + 1 < 4096) :
    s.fetchWord = some (wordOfBytes (s.readByte s.pc.toNat) (s.readByte (s.pc.toNat + 1))) := if_pos h

/-- A fetch fails exactly when `pc + 1` is no address (40_cycle.md R91). -/
theorem fetchWord_eq_none_iff (s : State) : s.fetchWord = none ↔ 4095 ≤ s.pc.toNat := by
  by_cases h : s.pc.toNat + 1 < 4096
  · rw [fetchWord_of_lt s h]
    simp; omega
  · have : s.fetchWord = none := if_neg h
    simp [this]; omega

/-- The constraints on the parameters, with the fixed sizes written as numbers (00_scope.md R5). -/
theorem valid_bounds {p : Config.Params} (h : p.valid) :
    p.fontData.length = 80 ∧ p.fontBase + 80 ≤ p.loadOrigin ∧ p.loadOrigin < 4096 ∧ 1 ≤ p.fbWidth ∧ 1 ≤ p.fbHeight := h

/-! ### What an event can answer -/

/-- A running executor: the fetch faults, or the word is unrecognized, or its instruction runs (40_cycle.md R95). -/
theorem cycle_cases (s : State) :
    (s.fetchWord = none ∧ cycle s = .next (s.setPhase (.faulted ⟨.fetchOutOfBounds, s.pc, none⟩))) ∨
    (∃ w, s.fetchWord = some w ∧ decodeWord w = .error (.unrecognized w) ∧ cycle s = .next (execUnrecognized w s)) ∨
    (∃ w i, s.fetchWord = some w ∧ decodeWord w = .ok i ∧ cycle s = exec i s) := by
  unfold cycle
  cases hf : s.fetchWord with
  | none => exact .inl ⟨rfl, rfl⟩
  | some w =>
    cases hd : decodeWord w with
    | ok i => exact .inr (.inr ⟨w, i, rfl, hd, by simp [hd]⟩)
    | error e =>
      have : e = .unrecognized w := by
        unfold decodeWord at hd
        split at hd
        · cases hd
        · cases hd; rfl
      subst this
      exact .inr (.inl ⟨w, rfl, hd, by simp [hd]⟩)

/-- `Step` runs a cycle in phase Running and does nothing in any other (40_cycle.md R90). -/
theorem stepEvent_running (r : Byte) (s : State) (h : s.phase = .running) : stepEvent r s = cycle (s.setRnd r) := by
  simp [stepEvent, h]

theorem stepEvent_idle (r : Byte) (s : State) (h : s.phase ≠ .running) : stepEvent r s = .next s := by
  cases hp : s.phase <;> simp_all [stepEvent]

/-- One step is one event: the first input, or a `Step` with the free random byte in phase Running, or nothing. -/
theorem step_cases (s : State) :
    (∃ e rest, s.inputs = e :: rest ∧ step s = applyEvent e (s.setInputs rest)) ∨
    (s.inputs = [] ∧ s.phase = .running ∧
      step s = cycle ((s.setDraws (s.draws + 1)).setRnd (Config.randomByte s.draws))) ∨
    (s.inputs = [] ∧ s.phase ≠ .running ∧ step s = .next s) := by
  unfold step nextEvent
  cases hi : s.inputs with
  | cons e rest => exact .inl ⟨e, rest, rfl, rfl⟩
  | nil =>
    by_cases hp : s.phase = .running
    · refine .inr (.inl ⟨rfl, hp, ?_⟩)
      simp [freeStep, hp, stepEvent]
    · refine .inr (.inr ⟨rfl, hp, ?_⟩)
      cases hq : s.phase <;> simp_all [freeStep]

end Sys2Proof.Machine
end

