-- ==== Sys2Proof/Laws/PerInstr.lean ====
section
/-! SUPPORT. Per instruction: its word is selected by a row of the opcode table, and that row builds the instruction back from
the word's fields (30_encoding.md R75). -/

namespace Sys2Proof.Laws.EncodedByRow

/-- Some row of the table selects the instruction's word, and a well-formed instruction is what that row reads from it. -/
def Statement (i : Instr) : Prop :=
  ∃ (k : Nat) (r : Row), opcodeTable[k]? = some r ∧ r.selects (encode i) = true ∧ (i.wellFormed = true → r.build (fields (encode i)) = i)

theorem selects_of_and {r : Row} {w c : Word} (h : w &&& r.mask = c) (hc : (c == r.pat) = true) : r.selects w = true := by
  unfold Row.selects
  rw [h]
  exact hc

theorem cls : Statement .cls := ⟨0, _, rfl, by decide, fun _ => rfl⟩

theorem ret : Statement .ret := ⟨1, _, rfl, by decide, fun _ => rfl⟩

theorem jp (nnn : Addr) : Statement (.jp nnn) :=
  ⟨2, _, rfl, selects_of_and (encAddr_and _ _) (by decide), fun _ => by simp [encode]⟩

theorem call (nnn : Addr) : Statement (.call nnn) :=
  ⟨3, _, rfl, selects_of_and (encAddr_and _ _) (by decide), fun _ => by simp [encode]⟩

theorem seImm (x : Reg) (kk : Byte) : Statement (.seImm x kk) :=
  ⟨4, _, rfl, selects_of_and (encXkk_and _ _ _) (by decide), fun _ => by simp [encode]⟩

theorem sneImm (x : Reg) (kk : Byte) : Statement (.sneImm x kk) :=
  ⟨5, _, rfl, selects_of_and (encXkk_and _ _ _) (by decide), fun _ => by simp [encode]⟩

theorem seReg (x y : Reg) : Statement (.seReg x y) :=
  ⟨6, _, rfl, selects_of_and (encXyn_and _ _ _ _) (by decide), fun _ => by simp [encode]⟩

theorem sneReg (x y : Reg) : Statement (.sneReg x y) :=
  ⟨7, _, rfl, selects_of_and (encXyn_and _ _ _ _) (by decide), fun _ => by simp [encode]⟩

theorem ldImm (x : Reg) (kk : Byte) : Statement (.ldImm x kk) :=
  ⟨8, _, rfl, selects_of_and (encXkk_and _ _ _) (by decide), fun _ => by simp [encode]⟩

theorem addImm (x : Reg) (kk : Byte) : Statement (.addImm x kk) :=
  ⟨9, _, rfl, selects_of_and (encXkk_and _ _ _) (by decide), fun _ => by simp [encode]⟩

theorem ldReg (x y : Reg) : Statement (.ldReg x y) :=
  ⟨10, _, rfl, selects_of_and (encXyn_and _ _ _ _) (by decide), fun _ => by simp [encode]⟩

theorem orReg (x y : Reg) : Statement (.orReg x y) :=
  ⟨11, _, rfl, selects_of_and (encXyn_and _ _ _ _) (by decide), fun _ => by simp [encode]⟩

theorem andReg (x y : Reg) : Statement (.andReg x y) :=
  ⟨12, _, rfl, selects_of_and (encXyn_and _ _ _ _) (by decide), fun _ => by simp [encode]⟩

theorem xorReg (x y : Reg) : Statement (.xorReg x y) :=
  ⟨13, _, rfl, selects_of_and (encXyn_and _ _ _ _) (by decide), fun _ => by simp [encode]⟩

theorem addReg (x y : Reg) : Statement (.addReg x y) :=
  ⟨14, _, rfl, selects_of_and (encXyn_and _ _ _ _) (by decide), fun _ => by simp [encode]⟩

theorem subReg (x y : Reg) : Statement (.subReg x y) :=
  ⟨15, _, rfl, selects_of_and (encXyn_and _ _ _ _) (by decide), fun _ => by simp [encode]⟩

theorem shr (x y : Reg) : Statement (.shr x y) :=
  ⟨16, _, rfl, selects_of_and (encXyn_and _ _ _ _) (by decide), fun _ => by simp [encode]⟩

theorem subnReg (x y : Reg) : Statement (.subnReg x y) :=
  ⟨17, _, rfl, selects_of_and (encXyn_and _ _ _ _) (by decide), fun _ => by simp [encode]⟩

theorem shl (x y : Reg) : Statement (.shl x y) :=
  ⟨18, _, rfl, selects_of_and (encXyn_and _ _ _ _) (by decide), fun _ => by simp [encode]⟩

theorem ldI (nnn : Addr) : Statement (.ldI nnn) :=
  ⟨19, _, rfl, selects_of_and (encAddr_and _ _) (by decide), fun _ => by simp [encode]⟩

theorem jpV0 (nnn : Addr) : Statement (.jpV0 nnn) :=
  ⟨20, _, rfl, selects_of_and (encAddr_and _ _) (by decide), fun _ => by simp [encode]⟩

theorem rnd (x : Reg) (kk : Byte) : Statement (.rnd x kk) :=
  ⟨21, _, rfl, selects_of_and (encXkk_and _ _ _) (by decide), fun _ => by simp [encode]⟩

theorem drw (x y : Reg) (n : Nat) : Statement (.drw x y n) := by
  refine ⟨22, _, rfl, selects_of_and (encXyn_and_op _ _ _ _) (by decide), fun h => ?_⟩
  have hn : n < 16 := by simpa [Instr.wellFormed] using h
  simp [encode, Nat.mod_eq_of_lt hn]

theorem skp (x : Reg) : Statement (.skp x) :=
  ⟨23, _, rfl, selects_of_and (encXkk_and_fn _ _ _) (by decide), fun _ => by simp [encode]⟩

theorem sknp (x : Reg) : Statement (.sknp x) :=
  ⟨24, _, rfl, selects_of_and (encXkk_and_fn _ _ _) (by decide), fun _ => by simp [encode]⟩

theorem ldVxDt (x : Reg) : Statement (.ldVxDt x) :=
  ⟨25, _, rfl, selects_of_and (encXkk_and_fn _ _ _) (by decide), fun _ => by simp [encode]⟩

theorem ldDtVx (x : Reg) : Statement (.ldDtVx x) :=
  ⟨26, _, rfl, selects_of_and (encXkk_and_fn _ _ _) (by decide), fun _ => by simp [encode]⟩

theorem ldStVx (x : Reg) : Statement (.ldStVx x) :=
  ⟨27, _, rfl, selects_of_and (encXkk_and_fn _ _ _) (by decide), fun _ => by simp [encode]⟩

theorem addI (x : Reg) : Statement (.addI x) :=
  ⟨28, _, rfl, selects_of_and (encXkk_and_fn _ _ _) (by decide), fun _ => by simp [encode]⟩

theorem ldVxK (x : Reg) : Statement (.ldVxK x) :=
  ⟨29, _, rfl, selects_of_and (encXkk_and_fn _ _ _) (by decide), fun _ => by simp [encode]⟩

theorem ldF (x : Reg) : Statement (.ldF x) :=
  ⟨30, _, rfl, selects_of_and (encXkk_and_fn _ _ _) (by decide), fun _ => by simp [encode]⟩

theorem ldB (x : Reg) : Statement (.ldB x) :=
  ⟨31, _, rfl, selects_of_and (encXkk_and_fn _ _ _) (by decide), fun _ => by simp [encode]⟩

theorem ldMemVx (x : Reg) : Statement (.ldMemVx x) :=
  ⟨32, _, rfl, selects_of_and (encXkk_and_fn _ _ _) (by decide), fun _ => by simp [encode]⟩

theorem ldVxMem (x : Reg) : Statement (.ldVxMem x) :=
  ⟨33, _, rfl, selects_of_and (encXkk_and_fn _ _ _) (by decide), fun _ => by simp [encode]⟩

end Sys2Proof.Laws.EncodedByRow
end

