-- ==== Sys2Proof/Tests/Slice0.lean ====
section
/-! SUPPORT. The model's own tests. The expected values of the instruction and event tests are the vectors of
spec/95_test_vectors.md, named by their ids there; the decode tests write the words out from the encoding lines of the instruction
rules; the witnesses meet the hypotheses of the statements. -/

namespace Sys2Proof.Machine.Slice0Tests

/-! ### Ill-formed terms -/

theorem test_wellFormed_refuses_sixteen_rows : (Instr.drw 0 1 16).wellFormed = false := by decide

theorem test_wellFormed_takes_fifteen_rows : (Instr.drw 0 1 15).wellFormed = true := by decide

/-! ### Decoding, every constructor by a word written out from the spec's encoding of it -/

theorem test_decode_flow :
    decodeWord 0b0000000011101110 = .ok .ret ∧ decodeWord 0b0001101010111100 = .ok (.jp 0xABC) ∧
    decodeWord 0b0010001101000101 = .ok (.call 0x345) ∧ decodeWord 0b0011001100010000 = .ok (.seImm 3 0x10) ∧
    decodeWord 0b0100001100010001 = .ok (.sneImm 3 0x11) ∧ decodeWord 0b0101000100100000 = .ok (.seReg 1 2) ∧
    decodeWord 0b1001000100100000 = .ok (.sneReg 1 2) ∧ decodeWord 0b1011111111111110 = .ok (.jpV0 0xFFE) := by decide

theorem test_decode_alu :
    decodeWord 0b0110101001011100 = .ok (.ldImm 10 0x5C) ∧ decodeWord 0b0111111100000001 = .ok (.addImm 15 1) ∧
    decodeWord 0b1000000100100000 = .ok (.ldReg 1 2) ∧ decodeWord 0b1000000100100001 = .ok (.orReg 1 2) ∧
    decodeWord 0b1000000100100010 = .ok (.andReg 1 2) ∧ decodeWord 0b1000000100100011 = .ok (.xorReg 1 2) ∧
    decodeWord 0b1000000111110100 = .ok (.addReg 1 15) ∧ decodeWord 0b1000111100010101 = .ok (.subReg 15 1) ∧
    decodeWord 0b1000000100100110 = .ok (.shr 1 2) ∧ decodeWord 0b1000000100100111 = .ok (.subnReg 1 2) ∧
    decodeWord 0b1000000100001110 = .ok (.shl 1 0) ∧ decodeWord 0b1100001100001111 = .ok (.rnd 3 0x0F) := by decide

theorem test_decode_index :
    decodeWord 0b1010000100100011 = .ok (.ldI 0x123) ∧ decodeWord 0b1111001000011110 = .ok (.addI 2) ∧
    decodeWord 0b1111010000101001 = .ok (.ldF 4) ∧ decodeWord 0b1111010100110011 = .ok (.ldB 5) ∧
    decodeWord 0b1111001001010101 = .ok (.ldMemVx 2) ∧ decodeWord 0b1111111101100101 = .ok (.ldVxMem 15) := by decide

theorem test_decode_display_keypad_timers :
    decodeWord 0b0000000011100000 = .ok .cls ∧ decodeWord 0b1101111100000101 = .ok (.drw 15 0 5) ∧
    decodeWord 0b1110000110011110 = .ok (.skp 1) ∧ decodeWord 0b1110000110100001 = .ok (.sknp 1) ∧
    decodeWord 0b1111010100001010 = .ok (.ldVxK 5) ∧ decodeWord 0b1111001100000111 = .ok (.ldVxDt 3) ∧
    decodeWord 0b1111001100010101 = .ok (.ldDtVx 3) ∧ decodeWord 0b1111001100011000 = .ok (.ldStVx 3) := by decide

/-- Vectors T17, A28, C4 to C7, and the words next to the rows of families 9 and E. -/
theorem test_decode_rejects :
    [0x5121, 0x8128, 0xF308, 0xF3FF, 0x0123, 0x00E1, 0x0000, 0x9121, 0xE19F, 0x812F].all
      (fun w => match decodeWord w with | .error e => e == .unrecognized w | .ok _ => false) = true := by decide

theorem test_decode_rejects_a_lone_byte :
    decode [0x12] = .error .truncated ∧ decode [] = .error .truncated ∧ decode [0x12, 0x34, 0x56] = .ok (.jp 0x234, [0x56]) := by
  refine ⟨rfl, rfl, rfl⟩

theorem test_decodeTableWord :
    decodeTableWord 16 0xD01F = some (.drw 0 1 15) ∧ decodeTableWord 16 0x00EE = some .ret ∧ decodeTableWord 16 0xF308 = none := by
  decide

theorem test_encode :
    encode (.drw 0 1 15) = 0xD01F ∧ encode (.shl 1 0) = 0x810E ∧ encode (.ldVxMem 15) = 0xFF65 ∧ encode (.jpV0 0xFFE) = 0xBFFE ∧
    encodeBytes (.call 0x345) = [0x23, 0x45] := by decide

/-- The spellings of spec/30_encoding.md R82, R83. -/
theorem test_disassemble :
    disassemble 0xF565 = "LD V5, [I]".toList ∧ disassemble 0xD012 = "DRW V0, V1, 0x2".toList ∧
    disassemble 0x70FF = "ADD V0, 0xFF".toList ∧ disassemble 0x8106 = "SHR V1".toList ∧
    disassemble 0x120A = "JP 0x20A".toList ∧ disassemble 0xF308 = "DW 0xF308".toList := by decide

/-! ### One step -/

/-- The reset state after a successful load, as the vectors take it: only the phase matters to them. -/
def ready : State := State.reset.setPhase .running

/-- The state after one step on the instruction word `w`, or `ready` should the step stop. -/
def after (w : Nat) (s : State) : State :=
  match step (s.withFetchWord 16 w) with
  | .next t => t
  | .fault _ => ready
  | .refused _ => ready

/-- The state after one event. -/
def afterEvent (e : Event) (s : State) : State :=
  match step (s.setInputs [e]) with
  | .next t => t
  | .fault _ => ready
  | .refused _ => ready

/-- The pixels of a state that are on. -/
def lit (s : State) : List Pixel := s.fb

theorem test_jp : (after 0x1ABC ready).pc = 0xABC := by decide -- T1

theorem test_call : -- T3
    let t := after 0x2345 ready
    t.pc = 0x345 ∧ t.sp = 1 ∧ t.slot 0 = 0x202 := by decide

theorem test_call_overflow : -- T5
    let t := after 0x2345 (ready.setSp 16)
    t.pc = 0x200 ∧ t.sp = 16 ∧ t.phase = .faulted ⟨.stackOverflow, 0x200, some 0x2345⟩ := by decide

theorem test_ret : -- T6
    let t := after 0x00EE ((ready.setSp 1).setSlot 0 0x456)
    t.pc = 0x456 ∧ t.sp = 0 ∧ t.slot 0 = 0x456 := by decide

theorem test_ret_underflow : (after 0x00EE ready).phase = .faulted ⟨.stackUnderflow, 0x200, some 0x00EE⟩ := by decide -- T7

theorem test_seImm : -- T8, T9
    (after 0x3310 (ready.setReg 3 0x10)).pc = 0x204 ∧ (after 0x3311 (ready.setReg 3 0x10)).pc = 0x202 := by decide

theorem test_sneImm : -- T10, T11
    (after 0x4311 (ready.setReg 3 0x10)).pc = 0x204 ∧ (after 0x4310 (ready.setReg 3 0x10)).pc = 0x202 := by decide

theorem test_seReg : -- T12, T13
    (after 0x5120 ((ready.setReg 1 7).setReg 2 7)).pc = 0x204 ∧ (after 0x5120 ((ready.setReg 1 7).setReg 2 8)).pc = 0x202 := by
  decide

theorem test_sneReg : -- T15, T16
    (after 0x9120 ((ready.setReg 1 7).setReg 2 8)).pc = 0x204 ∧ (after 0x9120 ((ready.setReg 1 7).setReg 2 7)).pc = 0x202 := by
  decide

theorem test_jpV0 : -- T18, T19
    (after 0xB300 (ready.setReg 0 0x10)).pc = 0x310 ∧ (after 0xBFFF (ready.setReg 0 0xFF)).pc = 0x10FE := by decide

theorem test_ldImm : (after 0x6A5C ready).reg 10 = 0x5C := by decide -- A1

theorem test_addImm : -- A2, A3
    (let t := after 0x7201 (ready.setReg 2 0xFF); t.reg 2 = 0 ∧ t.reg VF = 0) ∧
    (after 0x7F01 (ready.setReg VF 7)).reg VF = 8 := by decide

theorem test_ldReg : -- A4
    let t := after 0x8120 (ready.setReg 2 0x9A)
    t.reg 1 = 0x9A ∧ t.reg 2 = 0x9A := by decide

theorem test_orReg_keeps_VF : -- A5
    let t := after 0x8121 (((ready.setReg 1 0xF0).setReg 2 0x0F).setReg VF 0x55)
    t.reg 1 = 0xFF ∧ t.reg VF = 0x55 := by decide

theorem test_andReg : (after 0x8122 ((ready.setReg 1 0xF0).setReg 2 0x3C)).reg 1 = 0x30 := by decide -- A6

theorem test_xorReg : (after 0x8123 ((ready.setReg 1 0xFF).setReg 2 0x0F)).reg 1 = 0xF0 := by decide -- A7

theorem test_addReg : -- A8, A12
    (let t := after 0x8124 ((ready.setReg 1 0xC8).setReg 2 0x64); t.reg 1 = 0x2C ∧ t.reg VF = 1) ∧
    (let t := after 0x81F4 ((ready.setReg 1 0x10).setReg VF 0xFF); t.reg 1 = 0x0F ∧ t.reg VF = 1) := by decide

theorem test_addReg_into_VF : (after 0x8F14 ((ready.setReg VF 0x80).setReg 1 0x80)).reg VF = 1 := by decide -- A11

theorem test_subReg : -- A14, A15
    (let t := after 0x8125 ((ready.setReg 1 3).setReg 2 5); t.reg 1 = 0xFE ∧ t.reg VF = 0) ∧
    (let t := after 0x8125 ((ready.setReg 1 0x42).setReg 2 0x42); t.reg 1 = 0 ∧ t.reg VF = 1) := by decide

theorem test_subReg_into_VF : (after 0x8F15 ((ready.setReg VF 5).setReg 1 3)).reg VF = 1 := by decide -- A16

theorem test_shr_ignores_y : -- A18
    let t := after 0x8126 ((ready.setReg 1 4).setReg 2 1)
    t.reg 1 = 2 ∧ t.reg 2 = 1 ∧ t.reg VF = 0 := by decide

theorem test_shr_into_VF : (after 0x8F06 (ready.setReg VF 2)).reg VF = 0 := by decide -- A19

theorem test_subnReg : -- A20, A21
    (let t := after 0x8127 ((ready.setReg 1 3).setReg 2 5); t.reg 1 = 2 ∧ t.reg VF = 1) ∧
    (let t := after 0x8127 ((ready.setReg 1 5).setReg 2 3); t.reg 1 = 0xFE ∧ t.reg VF = 0) := by decide

theorem test_shl : -- A23
    let t := after 0x810E (ready.setReg 1 0x81)
    t.reg 1 = 2 ∧ t.reg VF = 1 := by decide

theorem test_shl_into_VF : (after 0x8F0E (ready.setReg VF 0x80)).reg VF = 1 := by decide -- A25

theorem test_rnd : (after 0xC30F (ready.setRnd 0xAB)).reg 3 = 0x0B := by decide -- A26

theorem test_ldI : (after 0xA123 ready).i = 0x123 := by decide -- M1

theorem test_addI : -- M3, M4
    (let t := after 0xF21E ((ready.setI 0xFFF).setReg 2 1); t.i = 0x1000 ∧ t.reg VF = 0) ∧
    (after 0xF21E ((ready.setI 0xFFFF).setReg 2 2)).i = 1 := by decide

theorem test_ldF : -- M6, M7
    (after 0xF429 (ready.setReg 4 0x0F)).i = 0x04B ∧ (after 0xF429 (ready.setReg 4 0x10)).i = 0x050 := by decide

theorem test_ldB : -- M8
    let t := after 0xF533 ((ready.setReg 5 0xEA).setI 0x300)
    t.readBytes 0x300 4 = [2, 3, 4, 0] ∧ t.i = 0x300 := by decide

theorem test_ldB_out_of_bounds : -- M12
    let t := after 0xF533 ((ready.setReg 5 7).setI 0xFFE)
    t.phase = .faulted ⟨.memoryOutOfBounds, 0x200, some 0xF533⟩ ∧ t.readBytes 0xFFE 2 = [0, 0] := by decide

theorem test_ldMemVx : -- M13
    let t := after 0xF255 ((((ready.setReg 0 1).setReg 1 2).setReg 2 3).setI 0x300)
    t.readBytes 0x300 4 = [1, 2, 3, 0] ∧ t.i = 0x300 := by decide

theorem test_ldMemVx_out_of_bounds : -- M15
    let t := after 0xF155 (((ready.setReg 0 0x11).setReg 1 0x22).setI 0xFFF)
    t.phase = .faulted ⟨.memoryOutOfBounds, 0x200, some 0xF155⟩ ∧ t.readByte 0xFFF = 0 := by decide

theorem test_ldVxMem : -- M16
    let t := after 0xF265 ((ready.storeBytes 0x300 [9, 8, 7, 6]).setI 0x300)
    t.reg 0 = 9 ∧ t.reg 1 = 8 ∧ t.reg 2 = 7 ∧ t.reg 3 = 0 ∧ t.i = 0x300 := by decide

theorem test_ldVxMem_out_of_bounds : -- M18
    (after 0xF065 (ready.setI 0x1000)).phase = .faulted ⟨.memoryOutOfBounds, 0x200, some 0xF065⟩ := by decide

theorem test_cls : lit (after 0x00E0 (ready.setFb [(10, 10)])) = [] := by decide -- G9

theorem test_drw_collision : -- G2
    let t := after 0xD011 (((ready.storeBytes 0x300 [0xC0]).setI 0x300).setFb [(0, 0)])
    lit t = [(1, 0)] ∧ t.reg VF = 1 := by decide

theorem test_drw_wraps : -- G3
    let t := after 0xD012 ((((ready.storeBytes 0x300 [0xC0, 0xC0]).setI 0x300).setReg 0 0x3F).setReg 1 0x1F)
    lit t = [(0, 0), (0, 31), (63, 0), (63, 31)] ∧ t.reg VF = 0 := by decide

theorem test_skp : -- K1, K5
    (after 0xE19E ((ready.setReg 1 3).setKey 8)).pc = 0x204 ∧
    (let t := after 0xE19E ((ready.setReg 1 0x13).setKey 0xFFFF)
     t.pc = 0x202 ∧ t.outputs = [.anomaly .keyIndexOutOfRange 0x200 0xE19E (some 0x13)]) := by decide

theorem test_sknp : -- K4, K6
    (after 0xE1A1 ((ready.setReg 1 3).setKey 8)).pc = 0x202 ∧
    (let t := after 0xE1A1 ((ready.setReg 1 0x13).setKey 0xFFFF)
     t.pc = 0x204 ∧ t.outputs = [.anomaly .keyIndexOutOfRange 0x200 0xE1A1 (some 0x13)]) := by decide

theorem test_ldVxK : -- K7
    let t := after 0xF50A ready
    t.pc = 0x200 ∧ t.phase = .awaitingKey 5 := by decide

theorem test_ldVxK_completes_on_lowest_edge : -- E7: keys 4 and 9
    let t := afterEvent (.keyUpdate 0x210) ((ready.setPhase (.awaitingKey 2)).setPc 0x300)
    t.reg 2 = 4 ∧ t.pc = 0x302 ∧ t.phase = .running ∧ t.key = 0x210 := by decide

theorem test_held_key_is_no_edge : -- E8
    afterEvent (.keyUpdate 0x10) ((ready.setPhase (.awaitingKey 2)).setKey 0x10) =
      (ready.setPhase (.awaitingKey 2)).setKey 0x10 := by decide

theorem test_ldVxDt : (after 0xF307 (ready.setDt 0x2A)).reg 3 = 0x2A := by decide -- C1

theorem test_ldDtVx : (after 0xF315 (ready.setReg 3 5)).dt = 5 := by decide -- C2

theorem test_ldStVx : (after 0xF318 (ready.setReg 3 5)).st = 5 := by decide -- C3

theorem test_unrecognized : -- C4
    let t := after 0xF308 (ready.setReg 3 5)
    t.st = 0 ∧ t.pc = 0x202 ∧ t.outputs = [.anomaly .unrecognizedOpcode 0x200 0xF308 none] := by decide

theorem test_tick : -- E1
    let t := afterEvent .tick ((ready.setDt 2).setFb [(1, 2)])
    t.dt = 1 ∧ t.st = 0 ∧ t.outputs = [.frame [(1, 2)]] := by decide

theorem test_tick_when_halted : -- E5
    afterEvent .tick ((ready.setDt 5).setPhase .halted) = (ready.setDt 5).setPhase .halted := by decide

theorem test_halt_then_step : -- E13
    afterEvent (.step 0) (afterEvent .halt ready) = ready.setPhase .halted := by decide

theorem test_load : -- E18
    let t := afterEvent (.load [0x60, 0x01]) State.reset
    t.readBytes 0x200 2 = [0x60, 0x01] ∧ t.loadEnd = 0x202 ∧ t.phase = .running ∧ t.outputs = [.loadResult .ok] := by decide

theorem test_load_too_large (rom : List Byte) (h : rom.length = 3585) : -- S8
    loadAnswer rom State.reset = .loadTooLarge := by
  have e : loadAnswer rom State.reset =
      if rom.length = 0 then .loadEmpty else if 4096 - 0x200 < rom.length then .loadTooLarge else .ok := rfl
  rw [e, h]
  decide

theorem test_load_largest (rom : List Byte) (h : rom.length = 3584) : loadAnswer rom State.reset = .ok := by -- S8
  have e : loadAnswer rom State.reset =
      if rom.length = 0 then .loadEmpty else if 4096 - 0x200 < rom.length then .loadTooLarge else .ok := rfl
  rw [e, h]
  decide

theorem test_step_before_load : afterEvent (.step 7) State.reset = State.reset := by decide -- E16

theorem test_fetch_out_of_bounds : -- E19
    (afterEvent (.step 0) (ready.setPc 0xFFF)).phase = .faulted ⟨.fetchOutOfBounds, 0xFFF, none⟩ := by decide

theorem test_fetch_at_odd_pc : -- E21
    let t := afterEvent (.step 0) ((ready.storeBytes 0x201 [0x6A, 0xBB]).setPc 0x201)
    t.reg 10 = 0xBB ∧ t.pc = 0x203 := by decide

/-! ### Witnesses: a state and operands that meet the hypotheses of each statement -/

/-- A machine with a loaded ROM of `bytes`. -/
def loaded (bytes : List Byte) : State := afterEvent (.load bytes) State.reset

/-- A machine whose display is eight wide and five high, where a sprite just fits. -/
def narrow : State :=
  (State.create ⟨0x200, 0, defaultFont, 8, 5⟩).setPhase .running

theorem inv_of_parts (s : State) (h1 : s.params.valid) (h2 : Memory.wf s.params s.mem) (h3 : Framebuffer.wf s.params s.fb)
    (h4 : s.pc.toNat ≤ 0x10FE) (h5 : ∀ j, (s.slot j).toNat ≤ 0x1000)
    (h6 : s.params.loadOrigin ≤ s.loadEnd.toNat ∧ s.loadEnd.toNat ≤ 4096) (h7 : phaseFits s) : Inv s :=
  ⟨h1, h2, h3, h4, h5, h6, h7⟩

/-- Whether an outcome is a next state. -/
def isNext {σ φ ρ : Type} (o : Host.Outcome σ φ ρ) : Bool :=
  match o with
  | .next _ => true
  | .fault _ => false
  | .refused _ => false

theorem exists_of_isNext {σ φ ρ : Type} (o : Host.Outcome σ φ ρ) (h : isNext o = true) : ∃ t, o = .next t := by
  cases o with
  | next t => exact ⟨t, rfl⟩
  | fault f => cases h
  | refused r => cases h

/-- CreationLeavesResetValues: valid parameters, and an address in and next to the font. -/
theorem witness_creation :
    defaultParams.valid ∧ (defaultParams.fontBase ≤ 79 ∧ 79 < defaultParams.fontBase + 80) ∧ defaultParams.fontBase + 80 ≤ 80 := by
  decide

/-- CreationLeavesResetValues, InvariantAtCreation: parameters at the bounds of their constraints, with addresses below and
above the font. -/
theorem witness_creation_bounds :
    let p : Config.Params := ⟨4095, 4015, defaultFont, 1, 1⟩
    p.valid ∧ 4014 < p.fontBase ∧ p.fontBase + 80 ≤ 4095 := by decide

/-- StepKeepsInvariant: a loaded machine about to clear its screen. -/
theorem witness_invariant : ∃ s t, Inv s ∧ step s = .next t ∧ s.phase = .running := by
  refine ⟨loaded [0x00, 0xE0] |>.setInputs [.step 0], _, inv_of_parts _ ?_ ?_ ?_ ?_ ?_ ?_ ?_, rfl, rfl⟩
  · decide
  · decide
  · decide
  · decide
  · decide
  · decide
  · show (0x200 : Nat) < (0x202 : Nat); decide

/-- StepRunsDecodedInstruction, with an empty list of inputs. -/
theorem witness_decoded :
    let s := loaded [0x12, 0x34]
    s.phase = .running ∧ s.pc.toNat + 1 < 4096 ∧ s.inputs = [] ∧
      decode [s.readByte s.pc.toNat, s.readByte (s.pc.toNat + 1)] = .ok (.jp 0x234, []) := by
  refine ⟨rfl, by decide, rfl, rfl⟩

/-- StepActsOnlyWhenRunning: both phases. -/
theorem witness_acts : State.reset.phase ≠ .running ∧ ready.phase = .running := by decide

/-- FetchOutOfBoundsFaults: the lowest and the highest `pc` a run can leave. -/
theorem witness_fetch_fault :
    ((ready.setPc 4095).phase = .running ∧ 4095 ≤ (ready.setPc 4095).pc.toNat) ∧
    ((ready.setPc 0x10FE).phase = .running ∧ 4095 ≤ (ready.setPc 0x10FE).pc.toNat) := by decide

/-- FetchIsBigEndian: the highest `pc`, and an odd one. -/
theorem witness_fetch : (ready.setPc 4094).pc.toNat + 1 < 4096 ∧ (ready.setPc 0x201).pc.toNat + 1 < 4096 := by decide

/-- UnrecognizedWordAdvances. -/
theorem witness_unrecognized :
    let s := loaded [0xF3, 0x08]
    s.phase = .running ∧ s.fetchWord = some 0xF308 ∧ ∀ i, decodeWord 0xF308 ≠ .ok i := by
  refine ⟨rfl, by decide, fun i h => ?_⟩
  have e : decodeWord 0xF308 = .error (.unrecognized 0xF308) := rfl
  rw [e] at h
  cases h

/-- DecoderFollowsOpcodeMap: a word for each clause on a family digit, and for the first and last function digits. -/
theorem witness_opcode_map :
    (0x1FFF / 4096 = 1 ∧ 0x2000 / 4096 = 2 ∧ 0x3FFF / 4096 = 3 ∧ 0x4000 / 4096 = 4 ∧ 0x6FFF / 4096 = 6 ∧ 0x7000 / 4096 = 7) ∧
    (0x5FF0 / 4096 = 5 ∧ 0x5FF0 % 16 = 0 ∧ 0x9000 / 4096 = 9 ∧ 0x9000 % 16 = 0) ∧
    (0x8FF0 / 4096 = 8 ∧ 0x8FF0 % 16 = 0 ∧ 0x8FFE / 4096 = 8 ∧ 0x8FFE % 16 = 14) ∧
    (0xA000 / 4096 = 10 ∧ 0xBFFF / 4096 = 11 ∧ 0xC000 / 4096 = 12 ∧ 0xDFFF / 4096 = 13) ∧
    (0xE09E / 4096 = 14 ∧ 0xE09E % 256 = 0x9E ∧ 0xFF07 / 4096 = 15 ∧ 0xFF07 % 256 = 0x07 ∧ 0xF065 % 256 = 0x65) := by decide

/-- DecodeOfEncodeIsIdentity and EncodeOfDecodeIsIdentity, at the largest row count. -/
theorem witness_round_trip : (Instr.drw 15 15 15).wellFormed = true ∧ decodeWord 0xDFFF = .ok (.drw 15 15 15) := by decide

/-- CallPushesReturnAddress and CallThenReturnRoundTrip: one free slot, and an empty stack. -/
theorem witness_call : (ready.setSp 15).sp.val < 16 ∧ ready.sp.val < 16 := by decide

/-- ReturnPopsAddress: one entry, and a full stack. -/
theorem witness_ret : 0 < (ready.setSp 1).sp.val ∧ 0 < (ready.setSp 16).sp.val := by decide

/-- StackFaultsAreTaken: each clause. -/
theorem witness_stack_faults : (ready.setSp 16).sp.val = 16 ∧ ready.sp.val = 0 := by decide

/-- AddSetsCarry, SubtractsSetNotBorrow, ShiftsSetShiftedOutBit: a destination that is not VF. -/
theorem witness_flag_writers : (14 : Reg) ≠ VF ∧ (0 : Reg) ≠ VF := by decide

/-- IndexArithmeticSetsI: valid parameters. -/
theorem witness_glyph : ready.params.valid := by decide

/-- BcdStoresDigits: the last address where three bytes fit. -/
theorem witness_bcd : (ready.setI 4093).indexAddress + 2 < 4096 := by decide

/-- RegisterBlockStored and RegisterBlockLoaded: the last address where one register fits, and where all sixteen do. -/
theorem witness_block :
    (ready.setI 4095).indexAddress + (0 : Reg).val < 4096 ∧ (ready.setI 4080).indexAddress + VF.val < 4096 := by decide

/-- BlockStoreThenLoadRestores: the load follows the store at once. -/
theorem witness_block_round_trip :
    ∃ t, (ready.setI 4080).indexAddress + VF.val < 4096 ∧ exec (.ldMemVx VF) (ready.setI 4080) = .next t ∧ t.i = t.i ∧
      ∀ k : Reg, k ≤ VF → t.readByte ((ready.setI 4080).indexAddress + k.val) = t.readByte ((ready.setI 4080).indexAddress + k.val) :=
  ⟨_, by decide, rfl, rfl, fun _ _ => rfl⟩

/-- DataAccessOutOfBoundsFaults: each clause at the first address that does not fit. -/
theorem witness_data_fault :
    4096 ≤ (ready.setI 4094).i.toNat + 2 ∧ 4096 ≤ (ready.setI 4095).i.toNat + (1 : Reg).val ∧
    (0 < 1 ∧ 1 < 16 ∧ 4096 ≤ (ready.setI 4096).i.toNat + 1 - 1) ∧
    (0 < 15 ∧ 15 < 16 ∧ 4096 ≤ (ready.setI 4082).i.toNat + 15 - 1) := by decide

/-- DrawInvertsSpriteCells and DrawCollisionInOrder: no rows at any address, and fifteen rows at the last address they fit. -/
theorem witness_draw :
    (0 = 0 ∨ (ready.setI 0xFFFF).indexAddress + 0 ≤ 4096) ∧ (15 = 0 ∨ (ready.setI 4081).indexAddress + 15 ≤ 4096) ∧
    ∃ t, exec (.drw 0 1 15) (ready.setI 4081) = .next t := by
  refine ⟨by decide, by decide, _, rfl⟩

/-- DrawCollisionWithoutOverlap, on the smallest display of the clause. -/
theorem witness_draw_without_overlap :
    ∃ t, (5 = 0 ∨ narrow.indexAddress + 5 ≤ 4096) ∧ 8 ≤ narrow.params.fbWidth ∧ 5 ≤ narrow.params.fbHeight ∧
      exec (.drw 0 1 5) narrow = .next t := by
  refine ⟨_, by decide, by decide, by decide, rfl⟩

/-- DoubleDrawRestoresScreen: glyph 0 twice at once, with a first draw that meets no pixel. -/
theorem witness_double_draw :
    ∃ t, (5 = 0 ∨ narrow.indexAddress + 5 ≤ 4096) ∧ exec (.drw 0 1 5) narrow = .next t ∧ t.params = narrow.params ∧ t.i = narrow.i ∧
      t.reg 0 = narrow.reg 0 ∧ t.reg 1 = narrow.reg 1 ∧ KeepsPixels t t ∧
      (∀ k, k < 5 → t.readByte (narrow.indexAddress + k) = narrow.readByte (narrow.indexAddress + k)) ∧
      8 ≤ narrow.params.fbWidth ∧ 5 ≤ narrow.params.fbHeight ∧ t.reg VF = 0 := by
  refine ⟨_, by decide, rfl, rfl, rfl, by decide, by decide, fun _ => rfl, fun _ _ => rfl, by decide, by decide, by decide⟩

/-- DoubleDrawRestoresScreen, where the spec's R176 and its drawing rules part (log 19): a sprite of one bit on a pixel that is on.
By the pseudocode of 44_display.md R171, followed by hand, the first draw turns the pixel off with VF = 1, and the second turns it
on again with VF = 0. -/
theorem witness_double_draw_on_a_lit_pixel :
    let s := ((ready.storeBytes 0x300 [0x80]).setI 0x300).setFb [(0, 0)]
    let t := after 0xD121 s
    let v := after 0xD121 (t.setPc 0x200)
    lit t = [] ∧ t.reg VF = 1 ∧ lit v = [(0, 0)] ∧ v.reg VF = 0 := by decide

/-- LowestEdgeCompletesWait: two keys go down at once, keys 4 and 9, and the lowest key 0. -/
theorem witness_edge :
    (ready.setPhase (.awaitingKey 2)).phase = .awaitingKey 2 ∧
    ((0x210 : Keypad).getLsbD 4 = true ∧ ready.key.getLsbD 4 = false) ∧
    (∀ j : Key, j < 4 → ¬ ((0x210 : Keypad).getLsbD j.val = true ∧ ready.key.getLsbD j.val = false)) ∧
    ((0xFFFF : Keypad).getLsbD 0 = true ∧ ready.key.getLsbD 0 = false) := by decide

/-- OtherKeyUpdatesOnlyCommit: each case. -/
theorem witness_commit :
    State.reset.phase = .unloaded ∧ ready.phase = .running ∧
    (((ready.setPhase (.awaitingKey 2)).setKey 0x10).phase = .awaitingKey 2 ∧
      ∀ j : Key, ¬ ((0x10 : Keypad).getLsbD j.val = true ∧
        ((ready.setPhase (.awaitingKey 2)).setKey 0x10).key.getLsbD j.val = false)) ∧
    (ready.setPhase .halted).ended = true := by decide

/-- A machine that waits for a key while key 4 is held. -/
def held : State := (ready.setPhase (.awaitingKey 2)).setKey 0x10

theorem held_run_answers :
    isNext (Host.Core.run core 2 (held.setInputs ([(0x10 : Keypad), 0x210].map .keyUpdate))) = true := by decide

/-- HeldKeyNeverCompletesWait: key 4 held over two updates, the second of which presses key 9. -/
theorem witness_held_key :
    held.phase = .awaitingKey 2 ∧ held.key.getLsbD (4 : Key).val = true ∧
      (∀ u ∈ [(0x10 : Keypad), 0x210], u.getLsbD (4 : Key).val = true) ∧
      ∃ t, Host.Core.run core 2 (held.setInputs ([(0x10 : Keypad), 0x210].map .keyUpdate)) = .next t :=
  ⟨by decide, by decide, by simp, exists_of_isNext _ held_run_answers⟩

/-- OnlyEdgeOrHaltEndsWait: each way out. -/
theorem witness_wait_ends :
    (∃ t, (ready.setPhase (.awaitingKey 2)).phase = .awaitingKey 2 ∧
      applyEvent .halt (ready.setPhase (.awaitingKey 2)) = .next t ∧ t.phase ≠ .awaitingKey 2) ∧
    (∃ t, applyEvent (.keyUpdate 1) (ready.setPhase (.awaitingKey 2)) = .next t ∧ t.phase ≠ .awaitingKey 2) := by
  refine ⟨⟨_, by decide, rfl, by decide⟩, ⟨_, rfl, by decide⟩⟩

/-- TickDecrementsAndEmitsFrame, TicksCountDownToZero, HaltStopsTheBlock: each clause. -/
theorem witness_ended :
    State.reset.ended = false ∧ ready.ended = false ∧ (ready.setPhase (.awaitingKey 0)).ended = false ∧
    (ready.setPhase .halted).ended = true ∧
    (ready.setPhase (.faulted ⟨.fetchOutOfBounds, 0xFFF, none⟩)).ended = true := by decide

/-- EndedRunNeverChanges: a halted machine that is sent a load and then a step. -/
theorem witness_ended_run :
    (ready.setPhase .halted).ended = true ∧
      ∃ t, Host.Core.run core 2 ((ready.setPhase .halted).setInputs [.load [1], .step 0]) = .next t :=
  ⟨by decide, exists_of_isNext _ (by decide)⟩

/-- LoadCopiesRom: one byte. (The longest ROM has 3584 bytes: `test_load_largest`.) -/
theorem witness_load :
    State.reset.phase = .unloaded ∧ 0 < [(0x12 : Byte)].length ∧ [(0x12 : Byte)].length ≤ 4096 - State.reset.params.loadOrigin := by
  decide

/-- LoadCopiesRom at the longest ROM, FailedLoadsChangeNothing at the shortest that fails, and its two other clauses. -/
theorem witness_failed_loads :
    (List.replicate 3584 (0 : Byte)).length ≤ 4096 - State.reset.params.loadOrigin ∧
    ([] : List Byte).length = 0 ∧
    ((List.replicate 3585 (0 : Byte)).length ≠ 0 ∧ 4096 - State.reset.params.loadOrigin < (List.replicate 3585 (0 : Byte)).length) ∧
    ready.phase ≠ .unloaded := by
  have o : 4096 - State.reset.params.loadOrigin = 3584 := rfl
  rw [o, List.length_replicate, List.length_replicate]
  decide

/-- OnlyNamedInstructionsWrite: an instruction that writes, for each clause. -/
theorem witness_writers :
    (∃ t, exec .cls (ready.setFb [(0, 0)]) = .next t ∧ ¬ KeepsPixels (ready.setFb [(0, 0)]) t) ∧
    (∃ t, exec (.ldB 0) (ready.setI 0x300 |>.setReg 0 1) = .next t ∧ ¬ KeepsBytes (ready.setI 0x300 |>.setReg 0 1) t) ∧
    (∃ t, exec (.ldI 1) ready = .next t ∧ t.i ≠ ready.i) ∧
    (∃ t, exec (.call 0x300) ready = .next t ∧ (∃ j, t.slot j ≠ ready.slot j) ∧ t.sp ≠ ready.sp) ∧
    (∃ t, exec (.ldDtVx 0) (ready.setReg 0 1) = .next t ∧ t.dt ≠ ready.dt) ∧
    (∃ t, exec (.ldStVx 0) (ready.setReg 0 1) = .next t ∧ t.st ≠ ready.st) := by
  refine ⟨⟨_, rfl, fun h => absurd (h (0, 0)) (by decide)⟩, ⟨_, rfl, fun h => absurd (h 0x302) (by decide)⟩, ⟨_, rfl, by decide⟩,
    ⟨_, rfl, ⟨0, by decide⟩, by decide⟩, ⟨_, rfl, by decide⟩, ⟨_, rfl, by decide⟩⟩

/-- OnlyFlagWritersWriteVF. -/
theorem witness_VF : ∃ t, exec (.shr 0 0) (ready.setReg 0 1) = .next t ∧ t.reg VF ≠ (ready.setReg 0 1).reg VF :=
  ⟨_, rfl, by decide⟩

/-- FaultsArePrecise, FaultsExactlyWhenDutyBroken, CycleReportsAtMostOnce: a cycle that faults, in the instruction and in the
fetch. -/
theorem witness_faults :
    (∃ t, (loaded [0x00, 0xEE]).phase = .running ∧ applyEvent (.step 0) (loaded [0x00, 0xEE]) = .next t ∧
      t.phase = .faulted ⟨.stackUnderflow, 0x200, some 0x00EE⟩) ∧
    (∃ t, (ready.setPc 4095).phase = .running ∧ applyEvent (.step 0) (ready.setPc 4095) = .next t ∧
      t.phase = .faulted ⟨.fetchOutOfBounds, 4095, none⟩) := by
  refine ⟨⟨_, rfl, rfl, by decide⟩, ⟨_, rfl, rfl, by decide⟩⟩

/-- FaultsExactlyWhenDutyBroken, CycleReportsAtMostOnce: a cycle that does not fault. -/
theorem witness_no_fault :
    ∃ t, (loaded [0x00, 0xE0]).phase = .running ∧ applyEvent (.step 0) (loaded [0x00, 0xE0]) = .next t ∧ t.failed = false :=
  ⟨_, rfl, rfl, by decide⟩

/-- OnlyRndUsesRandomInput and OutputLogIsNeverRead: an instruction other than Cxkk, here one that emits. -/
theorem witness_random_and_log :
    ∃ t, (∀ x kk, Instr.skp 0 ≠ .rnd x kk) ∧ exec (.skp 0) (ready.setReg 0 0x20) = .next t ∧ t.outputs.length = 1 := by
  refine ⟨_, fun x kk h => ?_, rfl, by decide⟩
  cases h

end Sys2Proof.Machine.Slice0Tests
end

/-! The decoder as one `↔` over the rows of the opcode table, the word of every instruction decoded back, and a word put together
from its digits (30_encoding.md R71, R75). -/

namespace Sys2Proof

/-! ### The rows exclude each other -/

/-- Two rows whose fixed bits agree under both masks would select a common word; no two rows of the table do. -/
theorem opcodeTable_pairwise_exclusive :
    opcodeTable.Pairwise fun r r' => r.pat &&& r'.mask ≠ r'.pat &&& r.mask := by
  decide

theorem Row.selects_iff (r : Row) (w : Word) : r.selects w = true ↔ w &&& r.mask = r.pat := beq_iff_eq

/-- Rows that select the same word have the same fixed bits under both masks. -/
theorem Row.pat_and_mask_comm {r r' : Row} {w : Word} (h : r.selects w = true) (h' : r'.selects w = true) :
    r.pat &&& r'.mask = r'.pat &&& r.mask := by
  rw [← (r.selects_iff w).mp h, ← (r'.selects_iff w).mp h', BitVec.and_assoc, BitVec.and_assoc,
    BitVec.and_comm r.mask r'.mask]

/-- The decoder's search meets the row that selects a word, whichever row it is. -/
theorem find?_opcodeTable_of_selects {r : Row} {w : Word} (hr : r ∈ opcodeTable) (hw : r.selects w = true) :
    opcodeTable.find? (·.selects w) = some r := by
  obtain ⟨before, after, htable⟩ := List.append_of_mem hr
  refine List.find?_eq_some_iff_append.mpr ⟨hw, before, after, htable, fun r' hr' => ?_⟩
  have hexclusive := (List.pairwise_append.mp (htable ▸ opcodeTable_pairwise_exclusive)).2.2 r' hr' r List.mem_cons_self
  cases hsel : r'.selects w with
  | false => rfl
  | true => exact absurd (Row.pat_and_mask_comm hsel hw) hexclusive

/-! ### What a word decodes to -/

/-- A word is a row's instruction exactly when `(w AND mask) = match` (30_encoding.md R75). -/
theorem decodeWord_eq_ok_iff (w : Word) (i : Instr) :
    decodeWord w = .ok i ↔ ∃ r ∈ opcodeTable, w &&& r.mask = r.pat ∧ i = r.build (fields w) := by
  constructor
  · intro h
    unfold decodeWord at h
    split at h
    next r hfind =>
      have hsel : r.selects w = true := List.find?_some (p := fun r : Row => r.selects w) hfind
      cases h
      exact ⟨r, List.mem_of_find?_eq_some hfind, (r.selects_iff w).mp hsel, rfl⟩
    next => cases h
  · rintro ⟨r, hr, hw, rfl⟩
    simp [decodeWord, find?_opcodeTable_of_selects hr ((r.selects_iff w).mpr hw)]

open Laws.EncodedByRow in
/-- Every instruction's word is selected by its own row, which reads the instruction back. -/
theorem encoded_by_row : ∀ i : Instr, Laws.EncodedByRow.Statement i
  | .cls => cls
  | .ret => ret
  | .jp nnn => jp nnn
  | .call nnn => call nnn
  | .seImm x kk => seImm x kk
  | .sneImm x kk => sneImm x kk
  | .seReg x y => seReg x y
  | .sneReg x y => sneReg x y
  | .ldImm x kk => ldImm x kk
  | .addImm x kk => addImm x kk
  | .ldReg x y => ldReg x y
  | .orReg x y => orReg x y
  | .andReg x y => andReg x y
  | .xorReg x y => xorReg x y
  | .addReg x y => addReg x y
  | .subReg x y => subReg x y
  | .shr x y => shr x y
  | .subnReg x y => subnReg x y
  | .shl x y => shl x y
  | .ldI nnn => ldI nnn
  | .jpV0 nnn => jpV0 nnn
  | .rnd x kk => rnd x kk
  | .drw x y n => drw x y n
  | .skp x => skp x
  | .sknp x => sknp x
  | .ldVxDt x => ldVxDt x
  | .ldDtVx x => ldDtVx x
  | .ldStVx x => ldStVx x
  | .addI x => addI x
  | .ldVxK x => ldVxK x
  | .ldF x => ldF x
  | .ldB x => ldB x
  | .ldMemVx x => ldMemVx x
  | .ldVxMem x => ldVxMem x

theorem decodeWord_encode {i : Instr} (hi : i.wellFormed = true) : decodeWord (encode i) = .ok i := by
  obtain ⟨k, r, hk, hsel, hbuild⟩ := encoded_by_row i
  exact (decodeWord_eq_ok_iff _ _).mpr
    ⟨r, List.mem_of_getElem? hk, (r.selects_iff _).mp hsel, (hbuild hi).symm⟩

theorem decodeWord_of_eq_encode {w : Word} {i : Instr} (hi : i.wellFormed = true) (h : w = encode i) :
    decodeWord w = .ok i := h ▸ decodeWord_encode hi

/-! ### A word from its digits (30_encoding.md R71, R74) -/

section
variable {w : Word} {op n : BitVec 4} {kk : Byte}

theorem eq_encAddr (hop : w.toNat / 4096 = op.toNat) : w = encAddr op (BitVec.ofNat 12 w.toNat) := by
  apply BitVec.eq_of_toNat_eq
  rw [toNat_encAddr, ← hop, BitVec.toNat_ofNat]
  omega

theorem eq_encXkk (hop : w.toNat / 4096 = op.toNat) (hkk : w.toNat % 256 = kk.toNat) :
    w = encXkk op (Fin.ofNat 16 (w.toNat / 256)) kk := by
  apply BitVec.eq_of_toNat_eq
  rw [toNat_encXkk, ← hop, ← hkk, Fin.val_ofNat]
  omega

theorem eq_encXyn (hop : w.toNat / 4096 = op.toNat) (hn : w.toNat % 16 = n.toNat) :
    w = encXyn op (Fin.ofNat 16 (w.toNat / 256)) (Fin.ofNat 16 (w.toNat / 16)) n := by
  apply BitVec.eq_of_toNat_eq
  rw [toNat_encXyn, ← hop, ← hn, Fin.val_ofNat, Fin.val_ofNat]
  omega

/-- Format XKK with its byte `kk` read from the word. -/
theorem eq_encXkk_low (hop : w.toNat / 4096 = op.toNat) :
    w = encXkk op (Fin.ofNat 16 (w.toNat / 256)) (BitVec.ofNat 8 w.toNat) :=
  eq_encXkk hop (BitVec.toNat_ofNat w.toNat 8).symm

/-- Format XYN with its row count `n` read from the word. -/
theorem eq_encXyn_low (hop : w.toNat / 4096 = op.toNat) :
    w = encXyn op (Fin.ofNat 16 (w.toNat / 256)) (Fin.ofNat 16 (w.toNat / 16)) (BitVec.ofNat 4 (w.toNat % 16)) :=
  eq_encXyn hop (by simp)

end

/-- Settles O11: a word with a row's fixed digits is the word of that row's instruction, and decoding undoes encoding. -/
theorem decoderFollowsOpcodeMap : Obligations.DecoderFollowsOpcodeMap := by
  unfold Obligations.DecoderFollowsOpcodeMap
  refine ⟨by decide, fun w i h => (decodeWord_eq_ok_iff w i).mp h, decodeWord_encode (i := .cls) rfl,
    decodeWord_encode (i := .ret) rfl, fun w => ?_⟩
  refine ⟨fun h => decodeWord_of_eq_encode rfl (eq_encAddr h), fun h => decodeWord_of_eq_encode rfl (eq_encAddr h),
    fun h => decodeWord_of_eq_encode rfl (eq_encXkk_low h), fun h => decodeWord_of_eq_encode rfl (eq_encXkk_low h),
    fun h h0 => decodeWord_of_eq_encode rfl (eq_encXyn h h0), fun h h0 => decodeWord_of_eq_encode rfl (eq_encXyn h h0),
    fun h => decodeWord_of_eq_encode rfl (eq_encXkk_low h), fun h => decodeWord_of_eq_encode rfl (eq_encXkk_low h),
    fun h => ?family8,
    fun h => decodeWord_of_eq_encode rfl (eq_encAddr h), fun h => decodeWord_of_eq_encode rfl (eq_encAddr h),
    fun h => decodeWord_of_eq_encode rfl (eq_encXkk_low h),
    fun h => ?drw, fun h => ?familyE, fun h => ?familyF⟩
  case drw =>
    have hn : w.toNat % 16 < 16 := Nat.mod_lt _ (by decide)
    exact decodeWord_of_eq_encode (decide_eq_true hn) (eq_encXyn_low h)
  case family8 =>
    refine ⟨?_, ?_, ?_, ?_, ?_, ?_, ?_, ?_, ?_⟩ <;> exact fun hn => decodeWord_of_eq_encode rfl (eq_encXyn h hn)
  case familyE =>
    refine ⟨?_, ?_⟩ <;> exact fun hkk => decodeWord_of_eq_encode rfl (eq_encXkk h hkk)
  case familyF =>
    refine ⟨?_, ?_, ?_, ?_, ?_, ?_, ?_, ?_, ?_⟩ <;> exact fun hkk => decodeWord_of_eq_encode rfl (eq_encXkk h hkk)

end Sys2Proof

/-! The cycle of a word that decodes to no instruction (40_cycle.md R96). -/

namespace Sys2Proof.Machine

/-- The fetch reads only `pc` and memory, so not the latched random byte. -/
theorem State.setRnd_fetchWord (s : State) (r : Byte) : (s.setRnd r).fetchWord = s.fetchWord := rfl

/-- Of the three things a cycle can do, a fetched word that names no instruction leaves one. -/
theorem cycle_of_unrecognized {s : State} {w : Word} (hfetch : s.fetchWord = some w)
    (hword : ∀ i, decodeWord w ≠ .ok i) : cycle s = .next (execUnrecognized w s) := by
  obtain ⟨hnone, -⟩ | ⟨w', hw', -, hcycle⟩ | ⟨w', i, hw', hdecode, -⟩ := cycle_cases s
  · rw [hnone] at hfetch
    cases hfetch
  · obtain rfl : w' = w := Option.some.inj (hw'.symm.trans hfetch)
    exact hcycle
  · obtain rfl : w' = w := Option.some.inj (hw'.symm.trans hfetch)
    exact absurd hdecode (hword i)

section
variable (w : Word) (s : State)

@[simp] theorem execUnrecognized_pc : (execUnrecognized w s).pc = s.pc + 2 := by
  simp [execUnrecognized]

@[simp] theorem execUnrecognized_outputs :
    (execUnrecognized w s).outputs = s.outputs ++ [.anomaly .unrecognizedOpcode s.pc w none] := by
  simp [execUnrecognized]

@[simp] theorem execUnrecognized_phase : (execUnrecognized w s).phase = s.phase := by
  simp [execUnrecognized]

/-- An unrecognized word changes `pc` and the outputs only. -/
theorem execUnrecognized_frame :
    KeepsRegs [] s (execUnrecognized w s) ∧ (execUnrecognized w s).i = s.i ∧ KeepsStack s (execUnrecognized w s) ∧
      KeepsTimers s (execUnrecognized w s) ∧ KeepsBytes s (execUnrecognized w s) ∧
      KeepsPixels s (execUnrecognized w s) ∧ KeepsHost s (execUnrecognized w s) := by
  simp [execUnrecognized, KeepsRegs, KeepsStack, KeepsTimers, KeepsBytes, KeepsPixels, KeepsHost]

end

/-- Settles O9: the `Step` is a cycle from the state with `r` latched, whose fetch reads the same word; what the cycle then
leaves unchanged is the frame of an unrecognized word, and latching `r` touches none of it but `rnd`. -/
theorem unrecognizedWordAdvances : Obligations.UnrecognizedWordAdvances := by
  unfold Obligations.UnrecognizedWordAdvances
  intro s r w hrunning hfetch hword
  have hstep : applyEvent (.step r) s = .next (execUnrecognized w (s.setRnd r)) :=
    (stepEvent_running r s hrunning).trans (cycle_of_unrecognized ((s.setRnd_fetchWord r).trans hfetch) hword)
  obtain ⟨hregs, hi, hstack, htimers, hbytes, hpixels, hhost⟩ := execUnrecognized_frame w (s.setRnd r)
  exact ⟨_, hstep, execUnrecognized_pc w _, execUnrecognized_outputs w _,
    (execUnrecognized_phase w _).trans hrunning, hregs, hi, hstack, htimers, hbytes, hpixels, hhost⟩

end Sys2Proof.Machine

/-! Jumps and skips (41_flow.md R110, R113 to R116): each is one write of `pc`. -/

namespace Sys2Proof.Machine

theorem addrOperand_toNat (nnn : Addr) : (addrOperand nnn).toNat = nnn.toNat :=
  BitVec.toNat_setWidth_of_le (by decide)

/-- The frame of every instruction that only writes `pc`. -/
theorem State.setPc_onlyRegs (but : List Reg) (s : State) (a : Word) : OnlyRegs but s (s.setPc a) := by
  simp [OnlyRegs, KeepsRegs, KeepsStack, KeepsTimers, KeepsBytes, KeepsPixels, KeepsRun, KeepsHost]

/-- The one rule of the skips: the Boolean test `c` of the model decides the condition `p`. -/
theorem exec_skip {i : Instr} {s : State} {c : Bool} {p : Prop} [Decidable p] (hexec : exec i s = .next (s.skipIf c))
    (hc : c = true ↔ p) :
    ∃ t, exec i s = .next t ∧ t.pc = (if p then s.pc + 4 else s.pc + 2) ∧ OnlyRegs [] s t :=
  ⟨s.skipIf c, hexec, by simp [hc], s.setPc_onlyRegs [] _⟩

/-- Settles O15: the jump writes `pc` alone, and the zero-extension keeps the address. -/
theorem jumpSetsPc : Obligations.JumpSetsPc := by
  unfold Obligations.JumpSetsPc
  intro nnn s
  exact ⟨s.setPc (addrOperand nnn), rfl, addrOperand_toNat nnn, s.setPc_onlyRegs [] _⟩

/-- Settles O21: the rule of the skips at the four conditions. -/
theorem skipsMovePc : Obligations.SkipsMovePc := by
  unfold Obligations.SkipsMovePc
  intro x y kk s
  refine ⟨?seImm, ?sneImm, ?seReg, ?sneReg⟩
  case seImm => exact exec_skip rfl beq_iff_eq
  case sneImm => exact exec_skip rfl bne_iff_ne
  case seReg => exact exec_skip rfl beq_iff_eq
  case sneReg => exact exec_skip rfl bne_iff_ne

end Sys2Proof.Machine

/-! The additions, subtractions and shifts (42_alu.md R131, R136 to R140): each writes one result, all but ADD Vx, kk with its flag,
and advances. -/

namespace Sys2Proof.Machine

/-- The frame of every instruction that writes one register and advances. -/
theorem State.setReg_advance_onlyRegs (s : State) (x : Reg) (b : Byte) : OnlyRegs [x] s (s.setReg x b).advance := by
  have hregs : KeepsRegs [x] s (s.setReg x b).advance := by
    intro r hr
    have hrx : r ≠ x := fun h => hr (by simp [h])
    simp [hrx]
  exact ⟨hregs, by simp [KeepsStack, KeepsTimers, KeepsBytes, KeepsPixels, KeepsRun, KeepsHost]⟩

/-- The frame of every instruction that writes a result with its flag and advances. -/
theorem State.setFlagged_advance_onlyRegs (s : State) (x : Reg) (b : Byte) (f : Bool) :
    OnlyRegs [x, VF] s (s.setFlagged x b f).advance := by
  have hregs : KeepsRegs [x, VF] s (s.setFlagged x b f).advance := by
    intro r hr
    have hrx : r ≠ x := fun h => hr (by simp [h])
    have hrf : r ≠ VF := fun h => hr (by simp [h])
    simp [hrx, hrf]
  exact ⟨hregs, by simp [KeepsStack, KeepsTimers, KeepsBytes, KeepsPixels, KeepsRun, KeepsHost]⟩

/-- Settles O23: the sum is written alone, VF included only as the destination, and a byte keeps it modulo 256. -/
theorem addImmediateWraps : Obligations.AddImmediateWraps := by
  unfold Obligations.AddImmediateWraps
  intro x kk s
  refine ⟨(s.setReg x (s.reg x + kk)).advance, rfl, ?sum, rfl, s.setReg_advance_onlyRegs x _⟩
  case sum => simp [BitVec.toNat_add]

/-! ### The flags as numbers (42_alu.md R142) -/

section
variable (a b : Byte)

theorem toNat_flagByte (c : Bool) : (flagByte c).toNat = c.toNat := by
  cases c <;> rfl

theorem toNat_flagByte_carry : (flagByte (carry a b)).toNat = if 255 < a.toNat + b.toNat then 1 else 0 := by
  simp [toNat_flagByte, carry, Bool.toNat]

theorem toNat_flagByte_notBorrow : (flagByte (notBorrow a b)).toNat = if b.toNat ≤ a.toNat then 1 else 0 := by
  simp [toNat_flagByte, notBorrow, Bool.toNat]

theorem toNat_flagByte_shiftOutLow : (flagByte (shiftOutLow a)).toNat = a.toNat % 2 := by
  rw [toNat_flagByte, shiftOutLow, BitVec.getLsbD, Nat.toNat_testBit]
  simp

theorem toNat_flagByte_shiftOutHigh : (flagByte (shiftOutHigh a)).toNat = a.toNat / 128 := by
  have ha : a.toNat < 256 := a.isLt
  rw [toNat_flagByte, shiftOutHigh, BitVec.getLsbD, Nat.toNat_testBit]
  omega

/-! ### The results as numbers -/

theorem toNat_sub_byte : (a - b).toNat = (a.toNat + 256 - b.toNat) % 256 := by
  have hb : b.toNat < 256 := b.isLt
  rw [BitVec.toNat_sub]
  omega

theorem toNat_ushiftRight_one : (a >>> 1).toNat = a.toNat / 2 := by
  rw [BitVec.toNat_ushiftRight, Nat.shiftRight_one]

theorem toNat_shiftLeft_one : (a <<< 1).toNat = 2 * a.toNat % 256 := by
  rw [BitVec.toNat_shiftLeft, Nat.shiftLeft_eq, Nat.mul_comm]

end

/-- The one rule of the flag writers: the result is written, then VF the flag, so with `x = F` the flag is what stays
(42_alu.md R143). -/
theorem exec_flagged {i : Instr} {s : State} {x : Reg} {b : Byte} {f : Bool} {result flag : Nat}
    (hexec : exec i s = .next (s.setFlagged x b f).advance) (hb : b.toNat = result) (hf : (flagByte f).toNat = flag) :
    ∃ t, exec i s = .next t ∧ (x ≠ VF → (t.reg x).toNat = result) ∧ (t.reg VF).toNat = flag ∧ t.pc = s.pc + 2 ∧
      OnlyRegs [x, VF] s t := by
  refine ⟨(s.setFlagged x b f).advance, hexec, ?result, ?flag, rfl, s.setFlagged_advance_onlyRegs x b f⟩
  case result =>
    intro hx
    simp [hx, hb]
  case flag => simp [← hf]

/-- Settles O25: the exact sum modulo 256, with its carry. -/
theorem addSetsCarry : Obligations.AddSetsCarry := by
  unfold Obligations.AddSetsCarry
  intro x y s
  exact exec_flagged rfl (BitVec.toNat_add _ _) (toNat_flagByte_carry _ _)

/-- Settles O26: SUBN is SUB with its operands exchanged, in the difference and in the flag. -/
theorem subtractsSetNotBorrow : Obligations.SubtractsSetNotBorrow := by
  unfold Obligations.SubtractsSetNotBorrow
  intro x y s
  refine ⟨?sub, ?subn⟩
  case sub => exact exec_flagged rfl (toNat_sub_byte _ _) (toNat_flagByte_notBorrow _ _)
  case subn => exact exec_flagged rfl (toNat_sub_byte _ _) (toNat_flagByte_notBorrow _ _)

/-- Settles O27: halving and doubling, each with the bit that falls out of the byte. -/
theorem shiftsSetShiftedOutBit : Obligations.ShiftsSetShiftedOutBit := by
  unfold Obligations.ShiftsSetShiftedOutBit
  intro x y s
  refine ⟨?shr, ?shl⟩
  case shr => exact exec_flagged rfl (toNat_ushiftRight_one _) (toNat_flagByte_shiftOutLow _)
  case shl => exact exec_flagged rfl (toNat_shiftLeft_one _) (toNat_flagByte_shiftOutHigh _)

end Sys2Proof.Machine

/-! The index register's loads (43_index_memory.md R150): one write of `I` and the advance. -/

namespace Sys2Proof.Machine

/-- The frame of every instruction that writes `I` and advances. -/
theorem State.setI_advance_onlyIndex (s : State) (a : Word) : OnlyIndex s (s.setI a).advance := by
  simp [OnlyIndex, KeepsRegs, KeepsStack, KeepsTimers, KeepsBytes, KeepsPixels, KeepsRun, KeepsHost]

/-- Settles O29: the instruction writes `I` alone and advances, and the zero-extension keeps the address. -/
theorem indexLoadSetsI : Obligations.IndexLoadSetsI := by
  unfold Obligations.IndexLoadSetsI
  intro nnn s
  exact ⟨(s.setI (addrOperand nnn)).advance, rfl, addrOperand_toNat nnn, rfl, s.setI_advance_onlyIndex _⟩

end Sys2Proof.Machine

/-! The framebuffer's one whole write (44_display.md R170). -/

namespace Sys2Proof.Machine

/-- No pixel of the cleared framebuffer is on. -/
@[simp] theorem Framebuffer.test_nil (q : Pixel) : Framebuffer.test [] q = false := by
  simp [Framebuffer.test]

@[simp] theorem State.setFb_pixel (s : State) (g : Framebuffer) (q : Pixel) :
    (s.setFb g).pixel q = Framebuffer.test g q := rfl

/-- The frame of an instruction that replaces the framebuffer, writes no register and advances. -/
theorem State.setFb_advance_frame (s : State) (g : Framebuffer) :
    KeepsRegs [] s (s.setFb g).advance ∧ (s.setFb g).advance.i = s.i ∧ KeepsStack s (s.setFb g).advance ∧
      KeepsTimers s (s.setFb g).advance ∧ KeepsBytes s (s.setFb g).advance ∧ KeepsRun s (s.setFb g).advance ∧
      KeepsHost s (s.setFb g).advance := by
  simp [KeepsRegs, KeepsStack, KeepsTimers, KeepsBytes, KeepsRun, KeepsHost]

/-- Settles O36: the framebuffer becomes the one with no pixel on, and nothing else but `pc` is written. -/
theorem clearTurnsEveryPixelOff : Obligations.ClearTurnsEveryPixelOff := by
  unfold Obligations.ClearTurnsEveryPixelOff
  intro s
  refine ⟨(s.setFb []).advance, rfl, ?off, rfl, s.setFb_advance_frame []⟩
  case off =>
    intro p
    simp

end Sys2Proof.Machine

/-! The key instructions (45_keypad.md R180 to R182): two skips that may log their key index, and the entry of the key wait. -/

namespace Sys2Proof

/-- The word of format XKK as one sum (30_encoding.md R71). -/
theorem encXkk_eq_ofNat (op : BitVec 4) (x : Reg) (kk : Byte) :
    encXkk op x kk = BitVec.ofNat 16 (op.toNat * 4096 + x.val * 256 + kk.toNat) := by
  rw [← toNat_encXkk, BitVec.ofNat_toNat, BitVec.setWidth_eq]

theorem encode_skp (x : Reg) : encode (.skp x) = BitVec.ofNat 16 (0xE09E + 256 * x.val) := by
  have hsum : 0xE * 4096 + x.val * 256 + 0x9E = 0xE09E + 256 * x.val := by omega
  exact (encXkk_eq_ofNat 0xE x 0x9E).trans (congrArg (BitVec.ofNat 16) hsum)

theorem encode_sknp (x : Reg) : encode (.sknp x) = BitVec.ofNat 16 (0xE0A1 + 256 * x.val) := by
  have hsum : 0xE * 4096 + x.val * 256 + 0xA1 = 0xE0A1 + 256 * x.val := by omega
  exact (encXkk_eq_ofNat 0xE x 0xA1).trans (congrArg (BitVec.ofNat 16) hsum)

end Sys2Proof

namespace Sys2Proof.Machine

/-- A key is pressed only at an index the keypad has. -/
theorem keyPressed_eq_true_iff (k : Keypad) (b : Byte) :
    keyPressed k b = true ↔ b.toNat ≤ 15 ∧ k.getLsbD b.toNat = true := by
  by_cases hb : b.toNat ≤ 15 <;> simp [keyPressed, hb]

section
variable (s : State) (i : Instr) (b : Byte) (c : Bool)

/-- The log of a key index touches the outputs only. -/
theorem State.noteKeyIndex_eq : s.noteKeyIndex i b = { s with outputs := (s.noteKeyIndex i b).outputs } := by
  unfold State.noteKeyIndex
  split <;> rfl

@[simp] theorem State.noteKeyIndex_outputs : (s.noteKeyIndex i b).outputs =
    s.outputs ++ (if b.toNat ≤ 15 then [] else [.anomaly .keyIndexOutOfRange s.pc (encode i) (some b)]) := by
  by_cases hb : b.toNat ≤ 15 <;> simp [State.noteKeyIndex, hb]

@[simp] theorem State.noteKeyIndex_pc : (s.noteKeyIndex i b).pc = s.pc := by
  rw [State.noteKeyIndex_eq]

/-- The frame of a skip that may log its key index: everything but `pc` and the outputs. -/
theorem State.noteKeyIndex_skipIf_frame :
    ((s.noteKeyIndex i b).skipIf c).phase = s.phase ∧ KeepsRegs [] s ((s.noteKeyIndex i b).skipIf c) ∧
      ((s.noteKeyIndex i b).skipIf c).i = s.i ∧ KeepsStack s ((s.noteKeyIndex i b).skipIf c) ∧
      KeepsTimers s ((s.noteKeyIndex i b).skipIf c) ∧ KeepsBytes s ((s.noteKeyIndex i b).skipIf c) ∧
      KeepsPixels s ((s.noteKeyIndex i b).skipIf c) ∧ KeepsHost s ((s.noteKeyIndex i b).skipIf c) := by
  rw [State.noteKeyIndex_eq]
  exact ⟨rfl, fun _ _ => rfl, rfl, ⟨rfl, fun _ => rfl⟩, ⟨rfl, rfl⟩, fun _ => rfl, fun _ => rfl,
    rfl, rfl, rfl, rfl, rfl, rfl⟩

end

/-- Settles O41: both skips log their index by one rule, then move `pc` by the test of the committed key. -/
theorem keySkipsTestCommittedKeys : Obligations.KeySkipsTestCommittedKeys := by
  unfold Obligations.KeySkipsTestCommittedKeys
  intro x s
  refine ⟨⟨_, rfl, ?skpPc, ?skpLog, State.noteKeyIndex_skipIf_frame ..⟩,
    ⟨_, rfl, ?sknpPc, ?sknpLog, State.noteKeyIndex_skipIf_frame ..⟩⟩
  case skpPc => simp [keyPressed_eq_true_iff]
  case skpLog => simp [encode_skp]
  case sknpPc =>
    by_cases hpressed : keyPressed s.key (s.reg x) = true <;> simp [← keyPressed_eq_true_iff, hpressed]
  case sknpLog => simp [encode_sknp]

/-- The frame of a change of phase. -/
theorem State.setPhase_frame (s : State) (p : Phase) :
    KeepsRegs [] s (s.setPhase p) ∧ (s.setPhase p).i = s.i ∧ KeepsStack s (s.setPhase p) ∧
      KeepsTimers s (s.setPhase p) ∧ KeepsBytes s (s.setPhase p) ∧ KeepsPixels s (s.setPhase p) ∧
      KeepsHost s (s.setPhase p) := by
  simp [KeepsRegs, KeepsStack, KeepsTimers, KeepsBytes, KeepsPixels, KeepsHost]

/-- Settles O42: entering the wait is a change of phase. -/
theorem keyWaitIsEntered : Obligations.KeyWaitIsEntered := by
  unfold Obligations.KeyWaitIsEntered
  intro x s
  exact ⟨s.setPhase (.awaitingKey x), rfl, rfl, rfl, rfl, s.setPhase_frame _⟩

end Sys2Proof.Machine

/-! The timer transfers (46_timers.md R190 to R192): a register takes the delay timer, or one timer takes a register. -/

namespace Sys2Proof.Machine

/-- The one rule of the instructions that write timers and advance; a timer that stays is written with its own value. -/
theorem exec_setTimers {i : Instr} {s : State} {d e : Byte} (hexec : exec i s = .next ((s.setDt d).setSt e).advance) :
    ∃ t, exec i s = .next t ∧ t.dt = d ∧ t.st = e ∧ t.pc = s.pc + 2 ∧ KeepsRegs [] s t ∧ t.i = s.i ∧
      KeepsStack s t ∧ KeepsBytes s t ∧ KeepsPixels s t ∧ KeepsRun s t ∧ KeepsHost s t := by
  refine ⟨((s.setDt d).setSt e).advance, hexec, rfl, rfl, rfl, ?frame⟩
  case frame => simp [KeepsRegs, KeepsStack, KeepsBytes, KeepsPixels, KeepsRun, KeepsHost]

/-- Settles O47: the read writes one register, and each set is the rule of the timer writes with the other timer as it was. -/
theorem timerTransfersCopy : Obligations.TimerTransfersCopy := by
  unfold Obligations.TimerTransfersCopy
  intro x s
  refine ⟨?readDelay, ?setDelay, ?setSound⟩
  case readDelay => exact ⟨(s.setReg x s.dt).advance, rfl, by simp, rfl, s.setReg_advance_onlyRegs x _⟩
  case setDelay => exact exec_setTimers rfl
  case setSound =>
    obtain ⟨t, hexec, hdt, hst, hrest⟩ := exec_setTimers (i := .ldStVx x) (s := s) (d := s.dt) (e := s.reg x) rfl
    exact ⟨t, hexec, hst, hdt, hrest⟩

end Sys2Proof.Machine

/-! The other half of the decoder's round trip: a decoded word is the word of its instruction, so the word a fault record holds is
the word fetched (30_encoding.md R71, R75; log 6). -/

namespace Sys2Proof

/-! ### The digits a row's mask fixes -/

section
variable {w mask pat : Word}

theorem toNat_div_4096_of_and (h : w &&& mask = pat) (hmask : mask.toNat / 4096 = 15) :
    w.toNat / 4096 = pat.toNat / 4096 := by
  have hw : w.toNat < 65536 := w.isLt
  calc w.toNat / 4096
      = w.toNat / 4096 % 2 ^ 4 := by omega
    _ = w.toNat / 4096 &&& mask.toNat / 4096 := by rw [hmask]; exact (Nat.and_two_pow_sub_one_eq_mod _ 4).symm
    _ = pat.toNat / 4096 := by rw [← h, BitVec.toNat_and]; exact (Nat.and_div_two_pow (n := 12)).symm

theorem toNat_mod_two_pow_of_and (k : Nat) (h : w &&& mask = pat) (hmask : mask.toNat % 2 ^ k = 2 ^ k - 1) :
    w.toNat % 2 ^ k = pat.toNat % 2 ^ k := by
  rw [← h, BitVec.toNat_and, Nat.and_mod_two_pow, hmask, Nat.and_two_pow_sub_one_eq_mod, Nat.mod_mod]

end

/-! ### A word from its fields, for each format and mask of the table -/

section
variable {w pat : Word} {op n : BitVec 4} {kk : Byte}

theorem encAddr_fields (h : w &&& 0xF000 = pat) (hop : pat.toNat / 4096 = op.toNat) :
    encAddr op (fields w).nnn = w := by
  rw [eq_encAddr ((toNat_div_4096_of_and h rfl).trans hop), fields_encAddr_nnn]

theorem encXkk_fields (h : w &&& 0xF000 = pat) (hop : pat.toNat / 4096 = op.toNat) :
    encXkk op (fields w).x (fields w).kk = w := by
  rw [eq_encXkk_low ((toNat_div_4096_of_and h rfl).trans hop), fields_encXkk_x, fields_encXkk_kk]

theorem encXkk_fields_fn (h : w &&& 0xF0FF = pat) (hop : pat.toNat / 4096 = op.toNat)
    (hkk : pat.toNat % 256 = kk.toNat) : encXkk op (fields w).x kk = w := by
  rw [eq_encXkk ((toNat_div_4096_of_and h rfl).trans hop) ((toNat_mod_two_pow_of_and 8 h rfl).trans hkk),
    fields_encXkk_x]

theorem encXyn_fields (h : w &&& 0xF000 = pat) (hop : pat.toNat / 4096 = op.toNat) :
    encXyn op (fields w).x (fields w).y (fields w).n = w := by
  rw [eq_encXyn_low ((toNat_div_4096_of_and h rfl).trans hop), fields_encXyn_x, fields_encXyn_y, fields_encXyn_n]

theorem encXyn_fields_fn (h : w &&& 0xF00F = pat) (hop : pat.toNat / 4096 = op.toNat)
    (hn : pat.toNat % 16 = n.toNat) : encXyn op (fields w).x (fields w).y n = w := by
  rw [eq_encXyn ((toNat_div_4096_of_and h rfl).trans hop) ((toNat_mod_two_pow_of_and 4 h rfl).trans hn),
    fields_encXyn_x, fields_encXyn_y]

end

/-! ### The rows of the table -/

/-- A row's instruction has the word the row read it from. -/
def Row.Reencodes (r : Row) : Prop := ∀ w : Word, w &&& r.mask = r.pat → encode (r.build (fields w)) = w

theorem Row.reencodes_of_whole_word {r : Row} (hmask : r.mask = BitVec.allOnes 16)
    (hbuild : ∀ f, encode (r.build f) = r.pat) : r.Reencodes := by
  intro w h
  rw [hbuild, ← h, hmask, BitVec.and_allOnes]

theorem opcodeRowsFlow_reencode : ∀ r ∈ opcodeRowsFlow, r.Reencodes := by
  simp only [opcodeRowsFlow, List.forall_mem_cons]
  exact ⟨Row.reencodes_of_whole_word rfl fun _ => rfl, Row.reencodes_of_whole_word rfl fun _ => rfl,
    fun _ h => encAddr_fields h rfl, fun _ h => encAddr_fields h rfl,
    fun _ h => encXkk_fields h rfl, fun _ h => encXkk_fields h rfl,
    fun _ h => encXyn_fields_fn h rfl rfl, fun _ h => encXyn_fields_fn h rfl rfl,
    fun _ h => encXkk_fields h rfl, fun _ h => encXkk_fields h rfl, List.forall_mem_nil _⟩

theorem opcodeRowsAlu_reencode : ∀ r ∈ opcodeRowsAlu, r.Reencodes := by
  simp only [opcodeRowsAlu, List.forall_mem_cons]
  refine ⟨?_, ?_, ?_, ?_, ?_, ?_, ?_, ?_, ?_, List.forall_mem_nil _⟩ <;>
    exact fun _ h => encXyn_fields_fn h rfl rfl

theorem opcodeRowsRest_reencode : ∀ r ∈ opcodeRowsRest, r.Reencodes := by
  simp only [opcodeRowsRest, List.forall_mem_cons]
  refine ⟨fun _ h => encAddr_fields h rfl, fun _ h => encAddr_fields h rfl, fun _ h => encXkk_fields h rfl, ?drw,
    ?_, ?_, ?_, ?_, ?_, ?_, ?_, ?_, ?_, ?_, ?_, List.forall_mem_nil _⟩
  case drw =>
    intro w h
    simpa [encode] using encXyn_fields (op := 0xD) h rfl
  all_goals exact fun _ h => encXkk_fields_fn h rfl rfl

theorem opcodeTable_reencode : ∀ r ∈ opcodeTable, r.Reencodes :=
  List.forall_mem_append.mpr ⟨List.forall_mem_append.mpr ⟨opcodeRowsFlow_reencode, opcodeRowsAlu_reencode⟩,
    opcodeRowsRest_reencode⟩

theorem encode_of_decodeWord {w : Word} {i : Instr} (h : decodeWord w = .ok i) : encode i = w := by
  obtain ⟨r, hr, hw, rfl⟩ := (decodeWord_eq_ok_iff w i).mp h
  exact opcodeTable_reencode r hr w hw

end Sys2Proof

/-! The fault rule of one instruction and of one cycle: a fault is one change of phase (60_exceptions.md R200 to R202). -/

namespace Sys2Proof.Machine

theorem State.setPhase_setPhase (s : State) (p q : Phase) : (s.setPhase p).setPhase q = s.setPhase q := rfl

theorem State.setPhase_of_phase_eq {s : State} {p : Phase} (h : s.phase = p) : s.setPhase p = s := by
  rw [← h]
  rfl

@[simp] theorem State.noteKeyIndex_phase (s : State) (i : Instr) (b : Byte) : (s.noteKeyIndex i b).phase = s.phase := by
  rw [State.noteKeyIndex_eq]

/-- The ways one instruction can end, by what they do to the phase. -/
inductive ExecEnds (i : Instr) (s : State) : Result → Prop
  /-- The instruction has its effect in the same phase. -/
  | completes {t : State} (h : t.phase = s.phase) : ExecEnds i s (.next t)
  /-- The key wait is entered (45_keypad.md R182). -/
  | waits (x : Reg) : ExecEnds i s (.next (s.setPhase (.awaitingKey x)))
  /-- A fault is taken with the instruction's own word, and nothing else is written (60_exceptions.md R201). -/
  | faults (k : FaultKind) : ExecEnds i s (.next (s.raiseFault k (some (encode i))))

theorem guardAccess_ends {i : Instr} {s t : State} (a n : Nat) (h : t.phase = s.phase) :
    ExecEnds i s (s.guardAccess i a n t) := by
  obtain ⟨hfits, -⟩ | ⟨hfaults, -⟩ := guardAccess_cases s i a n t
  · exact hfits ▸ .completes h
  · exact hfaults ▸ .faults .memoryOutOfBounds

theorem execCall_ends (nnn : Addr) (s : State) : ExecEnds (.call nnn) s (execCall nnn s) := by
  unfold execCall
  by_cases hroom : s.sp.val < 16
  · rw [push_of_lt s _ hroom]
    exact .completes rfl
  · rw [push_full s _ (by omega)]
    exact .faults .stackOverflow

theorem execRet_ends (s : State) : ExecEnds .ret s (execRet s) := by
  unfold execRet
  by_cases hentry : 0 < s.sp.val
  · rw [pop_of_pos s hentry]
    exact .completes rfl
  · rw [pop_empty s (by omega)]
    exact .faults .stackUnderflow

/-- Only the stack instructions and the guarded accesses have a fault to take. -/
theorem exec_ends (i : Instr) (s : State) : ExecEnds i s (exec i s) := by
  cases i with
  | call nnn => exact execCall_ends nnn s
  | ret => exact execRet_ends s
  | drw x y n => exact guardAccess_ends _ _ rfl
  | ldB x => exact guardAccess_ends _ _ (by simp)
  | ldMemVx x => exact guardAccess_ends _ _ (by simp)
  | ldVxMem x => exact guardAccess_ends _ _ (by simp)
  | skp x => exact .completes (by simp)
  | sknp x => exact .completes (by simp)
  | ldVxK x => exact .waits x
  | _ => exact .completes rfl

/-- A fault of an instruction writes the record alone, with the instruction's own address and word. -/
theorem exec_faulted {i : Instr} {s t : State} {f : FaultRecord} (hrunning : s.phase = .running)
    (hexec : exec i s = .next t) (hfault : t.phase = .faulted f) :
    ∃ k, t = s.raiseFault k (some (encode i)) := by
  have hends : ExecEnds i s (.next t) := hexec ▸ exec_ends i s
  cases hends with
  | completes hphase => rw [hphase, hrunning] at hfault; cases hfault
  | waits x => cases hfault
  | faults k => exact ⟨k, rfl⟩

/-- A fault of a cycle, in the fetch or in the instruction, writes the record alone: the word of the fetch stands in it, which a
failed fetch does not have (decision D17 of the spec). -/
theorem cycle_faulted {s t : State} {f : FaultRecord} (hrunning : s.phase = .running)
    (hcycle : cycle s = .next t) (hfault : t.phase = .faulted f) : ∃ k, t = s.raiseFault k s.fetchWord := by
  obtain ⟨hfetch, hanswer⟩ | ⟨w, -, -, hanswer⟩ | ⟨w, i, hfetch, hdecode, hanswer⟩ := cycle_cases s
  · cases hanswer.symm.trans hcycle
    exact ⟨.fetchOutOfBounds, by rw [hfetch]; rfl⟩
  · cases hanswer.symm.trans hcycle
    rw [execUnrecognized_phase, hrunning] at hfault
    cases hfault
  · rw [hfetch, ← encode_of_decodeWord hdecode]
    exact exec_faulted hrunning (hanswer.symm.trans hcycle) hfault

/-- Settles O56: the fault is one change of phase of the state with `r` latched, so putting the phase back gives that state,
and the record holds what that state's fetch read, which `r` does not touch. -/
theorem faultsArePrecise : Obligations.FaultsArePrecise := by
  unfold Obligations.FaultsArePrecise
  intro s t r f hrunning hstep hfault
  have hcycle : cycle (s.setRnd r) = .next t := (stepEvent_running r s hrunning).symm.trans hstep
  obtain ⟨k, rfl⟩ := cycle_faulted (s := s.setRnd r) hrunning hcycle hfault
  rw [State.setRnd_fetchWord] at hfault
  cases hfault
  refine ⟨?restored, rfl, rfl⟩
  case restored =>
    rw [State.raiseFault_eq, State.setPhase_setPhase]
    exact State.setPhase_of_phase_eq hrunning

end Sys2Proof.Machine

/-! The decoder's round trip over words and bytes, and the words no row selects (30_encoding.md R70 to R77). -/

namespace Sys2Proof

/-- The two bytes of a word, put back together (20_memory.md R52). -/
theorem wordOfBytes_extractLsb' (w : Word) : wordOfBytes (w.extractLsb' 8 8) (w.extractLsb' 0 8) = w := by
  apply BitVec.eq_of_toNat_eq
  rw [toNat_wordOfBytes, BitVec.extractLsb'_toNat, BitVec.extractLsb'_toNat, Nat.shiftRight_eq_div_pow]
  omega

/-- Two bytes decode to an instruction exactly when their word does. -/
theorem decode_pair_eq_ok_iff (hi lo : Byte) (i : Instr) :
    decode [hi, lo] = .ok (i, []) ↔ decodeWord (wordOfBytes hi lo) = .ok i := by
  cases hword : decodeWord (wordOfBytes hi lo) <;> simp [decode, hword]

/-- Settles O12: the row that selects an instruction's word reads it back, and the two bytes are that word. -/
theorem decodeOfEncodeIsIdentity : Obligations.DecodeOfEncodeIsIdentity := by
  unfold Obligations.DecodeOfEncodeIsIdentity
  intro i hi
  have hword : decodeWord (encode i) = .ok i := decodeWord_encode hi
  refine ⟨hword, (decode_pair_eq_ok_iff _ _ i).mpr ?bytes⟩
  case bytes => rw [wordOfBytes_extractLsb', hword]

/-- Of all operands only a row count could miss its field, and the decoder reads it from four bits. -/
theorem opcodeTable_build_wellFormed : ∀ r ∈ opcodeTable, ∀ f, (r.build f).wellFormed = true := by
  have hrows (f : Fields) : f.n.toNat < 16 := f.n.isLt
  simpa [opcodeTable, opcodeRowsFlow, opcodeRowsAlu, opcodeRowsRest, Instr.wellFormed] using hrows

theorem wellFormed_of_decodeWord {w : Word} {i : Instr} (h : decodeWord w = .ok i) : i.wellFormed = true := by
  obtain ⟨r, hr, -, rfl⟩ := (decodeWord_eq_ok_iff w i).mp h
  exact opcodeTable_build_wellFormed r hr (fields w)

/-- Settles O13: each row of the table reads a word back to itself and builds a well-formed instruction. -/
theorem encodeOfDecodeIsIdentity : Obligations.EncodeOfDecodeIsIdentity := by
  unfold Obligations.EncodeOfDecodeIsIdentity
  exact fun w i h => ⟨encode_of_decodeWord h, wellFormed_of_decodeWord h⟩

/-! ### The unrecognized words (30_encoding.md R77) -/

section
variable (op n : BitVec 4) (x y : Reg) (kk : Byte) (nnn : Addr)

@[simp] theorem encAddr_family : (encAddr op nnn).toNat / 4096 = op.toNat := by
  rw [toNat_encAddr]
  omega

@[simp] theorem encXkk_family : (encXkk op x kk).toNat / 4096 = op.toNat := by
  rw [toNat_encXkk]
  omega

@[simp] theorem encXyn_family : (encXyn op x y n).toNat / 4096 = op.toNat := by
  rw [toNat_encXyn]
  omega

@[simp] theorem encXkk_lowByte : (encXkk op x kk).toNat % 256 = kk.toNat := by
  rw [toNat_encXkk]
  omega

@[simp] theorem encXyn_lowNibble : (encXyn op x y n).toNat % 16 = n.toNat := by
  rw [toNat_encXyn]
  omega

end

/-- The six spaces of words that 30_encoding.md R77 lists. -/
def InUnrecognizedSpace (n : Nat) : Prop :=
  (n / 4096 = 0 ∧ n ≠ 0x00E0 ∧ n ≠ 0x00EE) ∨
  (n / 4096 = 5 ∧ n % 16 ≠ 0) ∨
  (n / 4096 = 8 ∧ 8 ≤ n % 16 ∧ n % 16 ≠ 14) ∨
  (n / 4096 = 9 ∧ n % 16 ≠ 0) ∨
  (n / 4096 = 14 ∧ n % 256 ∉ [0x9E, 0xA1]) ∨
  (n / 4096 = 15 ∧ n % 256 ∉ [0x07, 0x0A, 0x15, 0x18, 0x1E, 0x29, 0x33, 0x55, 0x65])

/-- The word of an instruction has a family digit outside the six spaces, or a function digit they leave out. -/
theorem encode_not_inUnrecognizedSpace (i : Instr) : ¬ InUnrecognizedSpace (encode i).toNat := by
  cases i <;> simp [InUnrecognizedSpace, encode]

/-- A word that decodes to nothing escapes every clause of the opcode map, which leaves the six spaces. -/
theorem inUnrecognizedSpace_of_decodes_to_nothing {w : Word} (hnone : ∀ i, decodeWord w ≠ .ok i) :
    InUnrecognizedSpace w.toNat := by
  have hmap := decoderFollowsOpcodeMap
  unfold Obligations.DecoderFollowsOpcodeMap at hmap
  obtain ⟨-, -, hcls, hret, hfamilies⟩ := hmap
  have hw : w.toNat < 65536 := w.isLt
  have hnotCls : w.toNat ≠ 0x00E0 := fun h => hnone .cls (BitVec.eq_of_toNat_eq (y := 0x00E0) h ▸ hcls)
  have hnotRet : w.toNat ≠ 0x00EE := fun h => hnone .ret (BitVec.eq_of_toNat_eq (y := 0x00EE) h ▸ hret)
  have hfamily := hfamilies w
  simp only [hnone, imp_false] at hfamily
  have hdigit : w.toNat / 4096 < 16 := by omega
  unfold InUnrecognizedSpace
  interval_cases hdigit : w.toNat / 4096 <;> simp at hfamily ⊢ <;> omega

/-- Settles O10: no instruction's word lies in the six spaces, and the opcode map covers every word outside them. -/
theorem unrecognizedSpaceIsExactlyListed : Obligations.UnrecognizedSpaceIsExactlyListed := by
  unfold Obligations.UnrecognizedSpaceIsExactlyListed
  refine fun w => ⟨inUnrecognizedSpace_of_decodes_to_nothing, fun hspace i hdecode => ?_⟩
  exact encode_not_inUnrecognizedSpace i (encode_of_decodeWord hdecode ▸ hspace)

/-- A word that names no instruction is rejected by name (30_encoding.md R77). -/
theorem decodeWord_eq_error {w : Word} (hnone : ∀ i, decodeWord w ≠ .ok i) : decodeWord w = .error (.unrecognized w) := by
  unfold decodeWord at hnone ⊢
  split <;> simp_all

/-- Settles O14: ten words are written as their instructions' encodings, and the eleventh lies in the space of family F. -/
theorem sampleWordsDecode : Obligations.SampleWordsDecode := by
  unfold Obligations.SampleWordsDecode
  have hspace : InUnrecognizedSpace (0xF308 : Word).toNat := by
    unfold InUnrecognizedSpace
    decide
  refine ⟨?_, ?_, ?_, ?_, ?_, ?_, ?_, ?_, ?_, ?_,
    decodeWord_eq_error ((unrecognizedSpaceIsExactlyListed 0xF308).mpr hspace)⟩ <;>
    exact decodeWord_of_eq_encode rfl rfl

end Sys2Proof

/-! What one instruction does where its duty is met, and the fault it takes where it is not (70_reset_and_hazards.md R251). -/

namespace Sys2Proof.Machine

/-! ### The sprite of a draw -/

/-- The cells of one sprite row: the columns of its bits of 1, from bit 7 down. -/
theorem rowHits_eq_map (p : Config.Params) (x0 py : Nat) (b : Byte) :
    rowHits p x0 py b =
      ((List.range 8).filter fun j => b.getLsbD (7 - j)).map fun j => ((x0 + j) % p.fbWidth, py) := by
  rw [rowHits, ← List.filterMap_eq_map, List.filterMap_filter]
  rfl

/-- The cells the model draws are those of 44_display.md R171. -/
theorem spriteHits_eq_spriteCells (x y : Reg) (n : Nat) (s : State) :
    spriteHits s.params (s.reg x).toNat (s.reg y).toNat (s.readBytes s.indexAddress n) = spriteCells x y n s := by
  rw [spriteHits_eq_flatMap, State.readBytes_length]
  refine List.flatMap_congr fun r hr => ?_
  have hrow : (s.readBytes s.indexAddress n).getD r 0 = s.readByte (s.indexAddress + r) := by
    rw [List.getD_eq_getElem _ _ (by simpa using hr), State.readBytes_getElem]
  rw [rowHits_eq_map, hrow]

/-- What a draw makes of the framebuffer, and whether it collides. -/
def drawnSprite (x y : Reg) (n : Nat) (s : State) : Framebuffer × Bool := drawPixels s.fb (spriteCells x y n s)

/-! ### The instructions that have a duty -/

section
variable {s : State}

theorem exec_call_of_room (nnn : Addr) (h : s.sp.val < 16) : exec (.call nnn) s = .next
    (((s.setSlot ⟨s.sp.val, h⟩ (s.pc + 2)).setSp ⟨s.sp.val + 1, Nat.succ_lt_succ h⟩).setPc (addrOperand nnn)) := by
  simp only [exec, execCall, push_of_lt s _ h, State.nextPc_eq]

theorem exec_ret_of_entry (h : 0 < s.sp.val) : exec .ret s = .next
    ((s.setSp ⟨s.sp.val - 1, by omega⟩).setPc (s.slot ⟨s.sp.val - 1, by omega⟩)) := by
  simp only [exec, execRet, pop_of_pos s h]

theorem exec_drw_of_fits {x y : Reg} {n : Nat} (h : n = 0 ∨ s.i.toNat + n ≤ 4096) : exec (.drw x y n) s = .next
    ((s.setFb (drawnSprite x y n s).1).setReg VF (flagByte (drawnSprite x y n s).2)).advance := by
  simp only [exec, execDrw, spriteHits_eq_spriteCells]
  exact guardAccess_fits _ _ _ _ _ h

theorem exec_ldB_of_fits {x : Reg} (h : s.i.toNat + 2 < 4096) : exec (.ldB x) s = .next
    (s.storeBytes s.i.toNat (decimalDigits (s.reg x))).advance :=
  guardAccess_fits s _ s.i.toNat 3 _ (by omega)

theorem exec_ldMemVx_of_fits {x : Reg} (h : s.i.toNat + x.val < 4096) : exec (.ldMemVx x) s = .next
    (s.storeBytes s.i.toNat ((regsUpTo x).map s.reg)).advance :=
  guardAccess_fits s _ s.i.toNat (x.val + 1) _ (by omega)

theorem exec_ldVxMem_of_fits {x : Reg} (h : s.i.toNat + x.val < 4096) : exec (.ldVxMem x) s = .next
    (s.loadRegs s.i.toNat (regsUpTo x)).advance :=
  guardAccess_fits s _ s.i.toNat (x.val + 1) _ (by omega)

end

/-! ### Broken duties -/

/-- The fault an instruction takes when its duty is broken (60_exceptions.md R200). -/
def faultOf : Instr → FaultKind
  | .call _ => .stackOverflow
  | .ret => .stackUnderflow
  | _ => .memoryOutOfBounds

/-- A broken duty is one fault with the instruction's own word, and nothing else is written (60_exceptions.md R201). -/
theorem exec_of_broken_duty {i : Instr} {s : State} (h : ¬ dutyOf i s) :
    exec i s = .next (s.raiseFault (faultOf i) (some (encode i))) := by
  cases i with
  | call nnn =>
    have hfull : s.sp.val = 16 := by simp only [dutyOf] at h; omega
    simp only [exec, execCall, push_full s _ hfull, faultOf]
  | ret =>
    have hempty : s.sp.val = 0 := by simp only [dutyOf] at h; omega
    simp only [exec, execRet, pop_empty s hempty, faultOf]
  | drw x y n =>
    simp only [dutyOf] at h
    exact guardAccess_faults s _ s.i.toNat n _ (by omega)
  | ldB x =>
    simp only [dutyOf] at h
    exact guardAccess_faults s _ s.i.toNat 3 _ (by omega)
  | ldMemVx x =>
    simp only [dutyOf] at h
    exact guardAccess_faults s _ s.i.toNat (x.val + 1) _ (by omega)
  | ldVxMem x =>
    simp only [dutyOf] at h
    exact guardAccess_faults s _ s.i.toNat (x.val + 1) _ (by omega)
  | _ => exact absurd trivial h

/-- An instruction's fault is never that of the fetch. -/
theorem faultOf_ne_fetchOutOfBounds (i : Instr) : faultOf i ≠ .fetchOutOfBounds := by
  cases i <;> exact nofun

/-! ### The log of a key index -/

namespace State

variable (s : State) (i : Instr) (b : Byte)

@[simp] theorem noteKeyIndex_params : (s.noteKeyIndex i b).params = s.params := by rw [noteKeyIndex_eq]
@[simp] theorem noteKeyIndex_i : (s.noteKeyIndex i b).i = s.i := by rw [noteKeyIndex_eq]
@[simp] theorem noteKeyIndex_sp : (s.noteKeyIndex i b).sp = s.sp := by rw [noteKeyIndex_eq]
@[simp] theorem noteKeyIndex_dt : (s.noteKeyIndex i b).dt = s.dt := by rw [noteKeyIndex_eq]
@[simp] theorem noteKeyIndex_st : (s.noteKeyIndex i b).st = s.st := by rw [noteKeyIndex_eq]
@[simp] theorem noteKeyIndex_key : (s.noteKeyIndex i b).key = s.key := by rw [noteKeyIndex_eq]
@[simp] theorem noteKeyIndex_loadEnd : (s.noteKeyIndex i b).loadEnd = s.loadEnd := by rw [noteKeyIndex_eq]
@[simp] theorem noteKeyIndex_inputs : (s.noteKeyIndex i b).inputs = s.inputs := by rw [noteKeyIndex_eq]
@[simp] theorem noteKeyIndex_rnd : (s.noteKeyIndex i b).rnd = s.rnd := by rw [noteKeyIndex_eq]
@[simp] theorem noteKeyIndex_draws : (s.noteKeyIndex i b).draws = s.draws := by rw [noteKeyIndex_eq]
@[simp] theorem noteKeyIndex_reg (y : Reg) : (s.noteKeyIndex i b).reg y = s.reg y := by rw [noteKeyIndex_eq]; rfl
@[simp] theorem noteKeyIndex_slot (j : Fin 16) : (s.noteKeyIndex i b).slot j = s.slot j := by
  rw [noteKeyIndex_eq]; rfl
@[simp] theorem noteKeyIndex_readByte (a : Nat) : (s.noteKeyIndex i b).readByte a = s.readByte a := by
  rw [noteKeyIndex_eq]; rfl
@[simp] theorem noteKeyIndex_pixel (q : Pixel) : (s.noteKeyIndex i b).pixel q = s.pixel q := by
  rw [noteKeyIndex_eq]; rfl

end State

/-! ### Where an instruction leaves `pc` -/

section
variable {s : State}

/-- The next instruction's address, and the one after it, from any address a fetch succeeds at (40_cycle.md R94). -/
theorem next_pc_le (h : s.pc.toNat ≤ 4094) : (s.pc + 2).toNat ≤ 0x1000 ∧ (s.pc + 4).toNat ≤ 0x1002 := by
  rw [BitVec.toNat_add, BitVec.toNat_add]
  have htwo : (2 : Word).toNat = 2 := rfl
  have hfour : (4 : Word).toNat = 4 := rfl
  omega

theorem skipIf_pc_le (h : s.pc.toNat ≤ 4094) (c : Bool) : (if c then s.pc + 4 else s.pc + 2).toNat ≤ 0x10FE := by
  have hnext := next_pc_le h
  split <;> omega

/-- The sum of R117 fits 16 bits, and 0x10FE is its greatest value (10_state.md R24). -/
theorem offsetTarget_toNat (nnn : Addr) (v0 : Byte) : (offsetTarget nnn v0).toNat = nnn.toNat + v0.toNat := by
  have hnnn : nnn.toNat < 4096 := nnn.isLt
  have hv0 : v0.toNat < 256 := v0.isLt
  rw [offsetTarget, BitVec.toNat_add, addrOperand_toNat, BitVec.toNat_setWidth_of_le (by decide)]
  omega

end

/-! ### The one inversion of a completed instruction -/

/-- What an instruction whose duty is met can make of the state: one constructor for each piece of state that instructions
write, with the instructions that write it. -/
inductive Completes (s : State) : Instr → State → Prop
  /-- The jumps and skips (41_flow.md); no `pc` above 0x10FE is reached from an address a fetch succeeds at. -/
  | movesPc {i : Instr} (a : Word) (ha : s.pc.toNat ≤ 4094 → a.toNat ≤ 0x10FE) : Completes s i (s.setPc a)
  /-- The skips on a key (45_keypad.md R180, R181). -/
  | notesKey {i : Instr} (b : Byte) (c : Bool) : Completes s i ((s.noteKeyIndex i b).skipIf c)
  /-- The entry of the key wait (45_keypad.md R182). -/
  | waits (x : Reg) : Completes s (.ldVxK x) (s.setPhase (.awaitingKey x))
  | calls (nnn : Addr) (h : s.sp.val < 16) : Completes s (.call nnn)
      (((s.setSlot ⟨s.sp.val, h⟩ (s.pc + 2)).setSp ⟨s.sp.val + 1, Nat.succ_lt_succ h⟩).setPc (addrOperand nnn))
  | returns (h : 0 < s.sp.val) : Completes s .ret
      ((s.setSp ⟨s.sp.val - 1, by omega⟩).setPc (s.slot ⟨s.sp.val - 1, by omega⟩))
  /-- One register, by name. -/
  | writesReg {i : Instr} (x : Reg) (b : Byte) (hi : (∃ kk, i = .ldImm x kk ∨ i = .addImm x kk ∨ i = .rnd x kk) ∨
      (∃ y, i = .ldReg x y ∨ i = .orReg x y ∨ i = .andReg x y ∨ i = .xorReg x y) ∨ i = .ldVxDt x) :
      Completes s i (s.setReg x b).advance
  /-- A result and its flag (42_alu.md R143). -/
  | writesFlagged {i : Instr} (x : Reg) (b : Byte) (f : Bool)
      (hi : ∃ y, i = .addReg x y ∨ i = .subReg x y ∨ i = .subnReg x y ∨ i = .shr x y ∨ i = .shl x y) :
      Completes s i (s.setFlagged x b f).advance
  | loadsRegs (x : Reg) : Completes s (.ldVxMem x) (s.loadRegs s.i.toNat (regsUpTo x)).advance
  | writesIndex {i : Instr} (a : Word) (hi : (∃ nnn, i = .ldI nnn) ∨ (∃ x, i = .addI x) ∨ ∃ x, i = .ldF x) :
      Completes s i (s.setI a).advance
  | writesDelay (x : Reg) : Completes s (.ldDtVx x) (s.setDt (s.reg x)).advance
  | writesSound (x : Reg) : Completes s (.ldStVx x) (s.setSt (s.reg x)).advance
  /-- A block of bytes inside memory. -/
  | stores {i : Instr} (bs : List Byte) (hfits : s.i.toNat + bs.length ≤ 4096)
      (hi : (∃ x, i = .ldB x) ∨ ∃ x, i = .ldMemVx x) : Completes s i (s.storeBytes s.i.toNat bs).advance
  | clears : Completes s .cls (s.setFb []).advance
  | draws (x y : Reg) (n : Nat) : Completes s (.drw x y n)
      ((s.setFb (drawnSprite x y n s).1).setReg VF (flagByte (drawnSprite x y n s).2)).advance

theorem exec_completes {i : Instr} {s t : State} (hduty : dutyOf i s) (hexec : exec i s = .next t) : Completes s i t := by
  cases i with
  | jp nnn =>
    cases hexec
    exact .movesPc _ fun _ => by rw [addrOperand_toNat]; omega
  | jpV0 nnn =>
    cases hexec
    exact .movesPc _ fun _ => by rw [offsetTarget_toNat]; omega
  | seImm | sneImm | seReg | sneReg =>
    cases hexec
    exact .movesPc _ (skipIf_pc_le · _)
  | skp | sknp => cases hexec; exact .notesKey _ _
  | ldVxK x => cases hexec; exact .waits x
  | call nnn => cases (exec_call_of_room nnn hduty).symm.trans hexec; exact .calls nnn hduty
  | ret => cases (exec_ret_of_entry hduty).symm.trans hexec; exact .returns hduty
  | ldImm x | addImm x | rnd x | ldReg x | orReg x | andReg x | xorReg x | ldVxDt x =>
    cases hexec
    exact .writesReg x _ (by simp)
  | addReg x | subReg x | subnReg x | shr x | shl x =>
    cases hexec
    exact .writesFlagged x _ _ (by simp)
  | ldVxMem x => cases (exec_ldVxMem_of_fits hduty).symm.trans hexec; exact .loadsRegs x
  | ldI | addI | ldF =>
    cases hexec
    exact .writesIndex _ (by simp)
  | ldDtVx x => cases hexec; exact .writesDelay x
  | ldStVx x => cases hexec; exact .writesSound x
  | ldB x =>
    cases (exec_ldB_of_fits hduty).symm.trans hexec
    exact .stores _ hduty (.inl ⟨x, rfl⟩)
  | ldMemVx x =>
    cases (exec_ldMemVx_of_fits hduty).symm.trans hexec
    exact .stores _ (by rw [List.length_map, regsUpTo_length]; exact hduty) (.inr ⟨x, rfl⟩)
  | cls => cases hexec; exact .clears
  | drw x y n => cases (exec_drw_of_fits hduty).symm.trans hexec; exact .draws x y n

end Sys2Proof.Machine

/-! The rules of the events other than `Step` (45_keypad.md R185; 60_exceptions.md R210, R220; 70_reset_and_hazards.md R243). -/

namespace Sys2Proof.Machine

section
variable (s : State) (k : Keypad) (rom : List Byte)

theorem State.ended_iff : s.ended = true ↔ s.phase = .halted ∨ ∃ r, s.phase = .faulted r := by
  cases hphase : s.phase <;> simp [State.ended, hphase]

theorem tick_eq : tick s = if s.ended then s else tickApplied s := by
  cases hphase : s.phase <;> simp [tick, State.ended, hphase]

theorem halt_eq : halt s = if s.ended then s else s.setPhase .halted := by
  cases hphase : s.phase <;> simp [halt, State.ended, hphase]

/-! ### The keypad update -/

theorem keyUpdate_of_ended {s : State} (h : s.ended = true) : keyUpdate k s = s := by
  obtain hhalted | ⟨r, hfaulted⟩ := s.ended_iff.mp h
  · simp only [keyUpdate, hhalted]
  · simp only [keyUpdate, hfaulted]

/-- The vector is committed after an edge has ended the wait, or at once (45_keypad.md R185). -/
theorem keyUpdate_of_awaitingKey {s : State} {x : Reg} (h : s.phase = .awaitingKey x) :
    keyUpdate k s =
      (((lowestKey (pressEdges s.key k)).map fun e => completeWait x e s).getD s).setKey k := by
  simp only [keyUpdate, h]
  cases lowestKey (pressEdges s.key k) <;> rfl

theorem keyUpdate_of_no_wait {s : State} (h : s.phase = .unloaded ∨ s.phase = .running) :
    keyUpdate k s = s.setKey k := by
  obtain hphase | hphase := h <;> simp only [keyUpdate, hphase]

/-- What a key update can do. -/
theorem keyUpdate_cases :
    (s.ended = true ∧ keyUpdate k s = s) ∨ (s.ended = false ∧ keyUpdate k s = s.setKey k) ∨
    (∃ x e, s.phase = .awaitingKey x ∧ lowestKey (pressEdges s.key k) = some e ∧
      keyUpdate k s = (completeWait x e s).setKey k) := by
  cases hphase : s.phase with
  | halted | faulted =>
    have hended : s.ended = true := by simp [State.ended, hphase]
    exact .inl ⟨hended, keyUpdate_of_ended k hended⟩
  | unloaded | running =>
    exact .inr (.inl ⟨by simp [State.ended, hphase], keyUpdate_of_no_wait k (by simp [hphase])⟩)
  | awaitingKey x =>
    have hupdate := keyUpdate_of_awaitingKey k hphase
    cases hedge : lowestKey (pressEdges s.key k) with
    | none => exact .inr (.inl ⟨by simp [State.ended, hphase], by rw [hupdate, hedge]; rfl⟩)
    | some e => exact .inr (.inr ⟨x, e, rfl, rfl, by rw [hupdate, hedge]; rfl⟩)

/-! ### The load -/

theorem load_of_loaded {s : State} (h : s.phase ≠ .unloaded) :
    load rom s = s.emit (.loadResult .loadNotAllowed) := by
  cases hphase : s.phase with
  | unloaded => exact absurd hphase h
  | _ => simp only [load, loadAnswer, hphase]

theorem load_empty {s : State} (h : s.phase = .unloaded) (hempty : rom.length = 0) :
    load rom s = s.emit (.loadResult .loadEmpty) := by
  simp only [load, loadAnswer, h, hempty, if_true]

theorem load_too_large {s : State} (h : s.phase = .unloaded) (hsome : rom.length ≠ 0)
    (hlarge : 4096 - s.params.loadOrigin < rom.length) : load rom s = s.emit (.loadResult .loadTooLarge) := by
  simp only [load, loadAnswer, h, if_neg hsome, if_pos hlarge]

theorem load_fits {s : State} (h : s.phase = .unloaded) (hsome : rom.length ≠ 0)
    (hfits : ¬ 4096 - s.params.loadOrigin < rom.length) :
    load rom s = (copyRom rom s).emit (.loadResult .ok) := by
  simp only [load, loadAnswer, h, if_neg hsome, if_neg hfits]

/-- A load copies its ROM, or answers and changes nothing. -/
theorem load_cases :
    (s.phase = .unloaded ∧ rom.length ≠ 0 ∧ rom.length ≤ 4096 - s.params.loadOrigin ∧
      load rom s = (copyRom rom s).emit (.loadResult .ok)) ∨
    (∃ answer, load rom s = s.emit (.loadResult answer)) := by
  by_cases hunloaded : s.phase = .unloaded
  · by_cases hempty : rom.length = 0
    · exact .inr ⟨_, load_empty rom hunloaded hempty⟩
    · by_cases hlarge : 4096 - s.params.loadOrigin < rom.length
      · exact .inr ⟨_, load_too_large rom hunloaded hempty hlarge⟩
      · exact .inl ⟨hunloaded, hempty, Nat.le_of_not_lt hlarge, load_fits rom hunloaded hempty hlarge⟩
  · exact .inr ⟨_, load_of_loaded rom hunloaded⟩

end

end Sys2Proof.Machine

/-! The invariant of the machine: it holds at creation, and every event keeps it (10_state.md R24, R45; 41_flow.md R111). -/

namespace Sys2Proof.Machine

/-! ### Creation -/

/-- Nothing but the font is in the memory of a new block, and every pixel is off (10_state.md R45). -/
theorem State.create_phaseFits (p : Config.Params) : phaseFits (State.create p) :=
  ⟨fun x => by simp [State.reg, State.create], rfl, rfl, fun j => by simp [State.slot, State.create],
    rfl, rfl, rfl, rfl, rfl, rfl⟩

/-- An address inside memory is its own 16-bit value. -/
theorem toNat_ofNat_of_le_memSize {a : Nat} (h : a ≤ 4096) : (BitVec.ofNat 16 a).toNat = a := by
  rw [BitVec.toNat_ofNat]
  omega

theorem State.create_inv {p : Config.Params} (hp : p.valid) : Inv (State.create p) := by
  obtain ⟨-, -, horigin, -, -⟩ := valid_bounds hp
  have hpc : (State.create p).pc.toNat = p.loadOrigin := toNat_ofNat_of_le_memSize (by omega)
  have hloadEnd : (State.create p).loadEnd.toNat = p.loadOrigin := toNat_ofNat_of_le_memSize (by omega)
  exact {
    paramsValid := hp
    memWf := Memory.wf_nil p
    fbWf := ⟨List.Pairwise.nil, by simp [State.create]⟩
    pcRange := by omega
    stackRange := fun j => by simp [State.slot, State.create]
    loadEndRange := ⟨hloadEnd.ge, by omega⟩
    phaseOk := State.create_phaseFits p }

/-- Settles O2: the reset state is the creation with the default parameters, which are valid. -/
theorem invariantAtCreation : Obligations.InvariantAtCreation := by
  unfold Obligations.InvariantAtCreation
  exact ⟨fun _ => State.create_inv, State.create_inv (p := defaultParams) (by decide), rfl, rfl, rfl, rfl⟩

/-! ### Updates that keep the invariant -/

section
variable {s t : State}

theorem phaseFits_of_running (hphase : s.phase = .running) (hloaded : s.params.loadOrigin < s.loadEnd.toNat) :
    phaseFits s := by
  simpa [phaseFits, hphase] using hloaded

/-- A running machine has a ROM (70_reset_and_hazards.md R243). -/
theorem Inv.loaded_of_running (h : Inv s) (hrunning : s.phase = .running) :
    s.params.loadOrigin < s.loadEnd.toNat := by
  simpa [phaseFits, hrunning] using h.phaseOk

/-- A waiting machine has a ROM, and its `pc` stands on its Fx0A. -/
theorem Inv.of_awaitingKey {x : Reg} (h : Inv s) (hwaits : s.phase = .awaitingKey x) :
    s.params.loadOrigin < s.loadEnd.toNat ∧ s.fetchWord = some (encode (.ldVxK x)) := by
  simpa [phaseFits, hwaits] using h.phaseOk

/-- The invariant speaks of no field of the host and of the keypad. -/
theorem Inv.withHostFields (h : Inv s) (k : Keypad) (es : List Event) (os : List Output) (r : Byte) (n : Nat) :
    Inv { s with key := k, inputs := es, outputs := os, rnd := r, draws := n } :=
  ⟨h.paramsValid, h.memWf, h.fbWf, h.pcRange, h.stackRange, h.loadEndRange, h.phaseOk⟩

theorem Inv.emit (h : Inv s) (o : Output) : Inv (s.emit o) := h.withHostFields _ _ _ _ _
theorem Inv.setKey (h : Inv s) (k : Keypad) : Inv (s.setKey k) := h.withHostFields _ _ _ _ _
theorem Inv.setInputs (h : Inv s) (es : List Event) : Inv (s.setInputs es) := h.withHostFields _ _ _ _ _
theorem Inv.setRnd (h : Inv s) (r : Byte) : Inv (s.setRnd r) := h.withHostFields _ _ _ _ _
theorem Inv.setDraws (h : Inv s) (n : Nat) : Inv (s.setDraws n) := h.withHostFields _ _ _ _ _

theorem Inv.setPhase_halted (h : Inv s) : Inv (s.setPhase .halted) :=
  ⟨h.paramsValid, h.memWf, h.fbWf, h.pcRange, h.stackRange, h.loadEndRange, trivial⟩

/-- A fault whose record holds the word at `pc`, which only a fault of the fetch lacks (10_state.md R39). -/
theorem Inv.raiseFault (h : Inv s) (hrunning : s.phase = .running) {k : FaultKind}
    (hkind : k = .fetchOutOfBounds ↔ s.fetchWord = none) : Inv (s.raiseFault k s.fetchWord) :=
  ⟨h.paramsValid, h.memWf, h.fbWf, h.pcRange, h.stackRange, h.loadEndRange,
    h.loaded_of_running hrunning, rfl, rfl, hkind⟩

/-- The timers of a machine that is Unloaded are 0 and stay so; in the other phases the invariant does not speak of them. -/
theorem Inv.setTimers (h : Inv s) {d e : Byte} (hunloaded : s.phase = .unloaded → d = 0 ∧ e = 0) :
    Inv ((s.setDt d).setSt e) := by
  refine ⟨h.paramsValid, h.memWf, h.fbWf, h.pcRange, h.stackRange, h.loadEndRange, ?_⟩
  have hfits := h.phaseOk
  unfold phaseFits at hfits ⊢
  rw [State.setSt_phase, State.setDt_phase]
  cases hphase : s.phase with
  | unloaded =>
    rw [hphase] at hfits
    obtain ⟨hregs, hi, hpc, hslots, hsp, -, -, hrest⟩ := hfits
    exact ⟨hregs, hi, hpc, hslots, hsp, (hunloaded hphase).1, (hunloaded hphase).2, hrest⟩
  | _ => rw [hphase] at hfits; exact hfits

/-- The pieces of state whose form the invariant fixes, `pc` and the phase aside, are the same. -/
def SameForms (s t : State) : Prop :=
  t.params = s.params ∧ t.loadEnd = s.loadEnd ∧ t.mem = s.mem ∧ t.fb = s.fb ∧ t.stack = s.stack

/-- What runs on with the same pieces needs only its `pc` in range. -/
theorem Inv.runs_on (h : Inv s) (hloaded : s.params.loadOrigin < s.loadEnd.toNat) (hsame : SameForms s t)
    (hphase : t.phase = .running) (hpc : t.pc.toNat ≤ 0x10FE) : Inv t := by
  obtain ⟨hparams, hloadEnd, hmem, hfb, hstack⟩ := hsame
  have hslot (j : Fin 16) : t.slot j = s.slot j := by simp only [State.slot, hstack]
  exact {
    paramsValid := hparams ▸ h.paramsValid
    memWf := by rw [hparams, hmem]; exact h.memWf
    fbWf := by rw [hparams, hfb]; exact h.fbWf
    pcRange := hpc
    stackRange := fun j => hslot j ▸ h.stackRange j
    loadEndRange := by rw [hparams, hloadEnd]; exact h.loadEndRange
    phaseOk := phaseFits_of_running hphase (by rw [hparams, hloadEnd]; exact hloaded) }

end

/-! ### The instructions -/

section
variable {s : State}

theorem pc_le_of_fetchWord {w : Word} (h : s.fetchWord = some w) : s.pc.toNat ≤ 4094 := by
  have hsome : s.fetchWord ≠ none := by simp [h]
  rw [ne_eq, fetchWord_eq_none_iff] at hsome
  omega

/-- Every cell of a draw lies in the grid (44_display.md R172). -/
theorem spriteCells_inside (hvalid : s.params.valid) (x y : Reg) (n : Nat) :
    ∀ p ∈ spriteCells x y n s, p.1 < s.params.fbWidth ∧ p.2 < s.params.fbHeight := by
  obtain ⟨-, -, -, hgrid⟩ := valid_bounds hvalid
  rw [← spriteHits_eq_spriteCells]
  exact spriteHits_inside _ hgrid _ _ _

/-- An instruction that completes keeps the invariant. -/
theorem Inv.completes {i : Instr} {t : State} (h : Inv s) (hrunning : s.phase = .running)
    (hfetch : s.fetchWord = some (encode i)) (ht : Completes s i t) : Inv t := by
  have hloaded := h.loaded_of_running hrunning
  have hpc := pc_le_of_fetchWord hfetch
  have hnext : (s.pc + 2).toNat ≤ 0x1000 := (next_pc_le hpc).1
  have hadvance : (s.pc + 2).toNat ≤ 0x10FE := hnext.trans (by decide)
  cases ht with
  | movesPc a ha => exact h.runs_on hloaded ⟨rfl, rfl, rfl, rfl, rfl⟩ hrunning (ha hpc)
  | notesKey b c =>
    rw [State.noteKeyIndex_eq]
    exact h.runs_on hloaded ⟨rfl, rfl, rfl, rfl, rfl⟩ hrunning (skipIf_pc_le hpc c)
  | waits x => exact { h with phaseOk := ⟨hloaded, hfetch⟩ }
  | calls nnn hroom =>
    have hslots (j : Fin 16) : ((s.setSlot ⟨s.sp.val, hroom⟩ (s.pc + 2)).slot j).toNat ≤ 0x1000 := by
      rw [State.setSlot_slot]
      split
      · exact hnext
      · exact h.stackRange j
    exact { h with
      pcRange := by rw [State.setPc_pc, addrOperand_toNat]; omega
      stackRange := hslots
      phaseOk := phaseFits_of_running hrunning hloaded }
  | returns hentry =>
    exact h.runs_on hloaded ⟨rfl, rfl, rfl, rfl, rfl⟩ hrunning ((h.stackRange _).trans (by decide))
  | loadsRegs x =>
    rw [State.loadRegs_eq]
    exact h.runs_on hloaded ⟨rfl, rfl, rfl, rfl, rfl⟩ hrunning hadvance
  | stores bs hfits =>
    have hmem := s.storeBytes_memWf s.i.toNat bs h.memWf hfits
    rw [State.storeBytes_eq_setMem]
    exact { h with memWf := hmem, pcRange := hadvance, phaseOk := phaseFits_of_running hrunning hloaded }
  | clears =>
    exact { h with fbWf := ⟨List.Pairwise.nil, by simp⟩, pcRange := hadvance, phaseOk := phaseFits_of_running hrunning hloaded }
  | draws x y n =>
    exact { h with
      fbWf := wf_drawPixels _ _ _ h.fbWf (spriteCells_inside h.paramsValid x y n)
      pcRange := hadvance
      phaseOk := phaseFits_of_running hrunning hloaded }
  | writesReg | writesFlagged | writesIndex | writesDelay | writesSound =>
    exact h.runs_on hloaded ⟨rfl, rfl, rfl, rfl, rfl⟩ hrunning hadvance

theorem Inv.exec {i : Instr} {t : State} (h : Inv s) (hrunning : s.phase = .running)
    (hfetch : s.fetchWord = some (encode i)) (hexec : exec i s = .next t) : Inv t := by
  by_cases hduty : dutyOf i s
  · exact h.completes hrunning hfetch (exec_completes hduty hexec)
  · cases (exec_of_broken_duty hduty).symm.trans hexec
    rw [← hfetch]
    exact h.raiseFault hrunning (by simp [hfetch, faultOf_ne_fetchOutOfBounds])

/-! ### The cycle and the events -/

theorem Inv.execUnrecognized (h : Inv s) (hrunning : s.phase = .running) (hpc : s.pc.toNat ≤ 4094) (w : Word) :
    Inv (execUnrecognized w s) :=
  h.runs_on (h.loaded_of_running hrunning) ⟨rfl, rfl, rfl, rfl, rfl⟩ hrunning ((next_pc_le hpc).1.trans (by decide))

theorem Inv.cycle {t : State} (h : Inv s) (hrunning : s.phase = .running) (hcycle : cycle s = .next t) : Inv t := by
  obtain ⟨hfetch, hanswer⟩ | ⟨w, hfetch, -, hanswer⟩ | ⟨w, i, hfetch, hdecode, hanswer⟩ := cycle_cases s
  · cases hanswer.symm.trans hcycle
    have hfault := h.raiseFault hrunning (k := .fetchOutOfBounds) (by simp [hfetch])
    rwa [hfetch] at hfault
  · cases hanswer.symm.trans hcycle
    exact h.execUnrecognized hrunning (pc_le_of_fetchWord hfetch) w
  · rw [← encode_of_decodeWord hdecode] at hfetch
    exact h.exec hrunning hfetch (hanswer.symm.trans hcycle)

theorem Inv.stepEvent {t : State} {r : Byte} (h : Inv s) (hstep : stepEvent r s = .next t) : Inv t := by
  by_cases hrunning : s.phase = .running
  · exact (h.setRnd r).cycle hrunning ((stepEvent_running r s hrunning).symm.trans hstep)
  · cases (stepEvent_idle r s hrunning).symm.trans hstep
    exact h

theorem Inv.tickApplied (h : Inv s) : Inv (tickApplied s) := by
  refine (h.setTimers fun hunloaded => ?_).emit _
  have hfits := h.phaseOk
  simp only [phaseFits, hunloaded] at hfits
  obtain ⟨-, -, -, -, -, hdt, hst, -⟩ := hfits
  simp [hdt, hst, timerAfterTick]

theorem Inv.tick (h : Inv s) : Inv (tick s) := by
  rw [tick_eq]
  split
  · exact h
  · exact h.tickApplied

/-- The wait ends past its Fx0A, which a fetch reads at `pc` (45_keypad.md R185). -/
theorem Inv.completeWait {x : Reg} (h : Inv s) (hwaits : s.phase = .awaitingKey x) (e : Key) :
    Inv (completeWait x e s) := by
  obtain ⟨hloaded, hfetch⟩ := h.of_awaitingKey hwaits
  exact h.runs_on hloaded ⟨rfl, rfl, rfl, rfl, rfl⟩ rfl
    ((next_pc_le (pc_le_of_fetchWord hfetch)).1.trans (by decide))

theorem Inv.keyUpdate (h : Inv s) (k : Keypad) : Inv (keyUpdate k s) := by
  obtain ⟨-, hupdate⟩ | ⟨-, hupdate⟩ | ⟨x, e, hwaits, -, hupdate⟩ := keyUpdate_cases s k
  · rwa [hupdate]
  · rw [hupdate]
    exact h.setKey k
  · rw [hupdate]
    exact (h.completeWait hwaits e).setKey k

theorem Inv.halt (h : Inv s) : Inv (halt s) := by
  rw [halt_eq]
  split
  · exact h
  · exact h.setPhase_halted

/-- The copied ROM lies inside memory, so memory keeps its form and `loadEnd` its range (70_reset_and_hazards.md R243). -/
theorem Inv.copyRom (h : Inv s) {rom : List Byte} (hsome : rom.length ≠ 0)
    (hfits : rom.length ≤ 4096 - s.params.loadOrigin) : Inv (copyRom rom s) := by
  have hinside : s.params.loadOrigin + rom.length ≤ 4096 := by omega
  have hmem := s.storeBytes_memWf s.params.loadOrigin rom h.memWf hinside
  have hend := toNat_ofNat_of_le_memSize hinside
  unfold Machine.copyRom
  rw [State.storeBytes_eq_setMem]
  exact { h with
    memWf := hmem
    loadEndRange := ⟨(Nat.le_add_right _ _).trans hend.ge, hend.le.trans hinside⟩
    phaseOk := phaseFits_of_running rfl (lt_of_lt_of_eq (by simp; omega) hend.symm) }

theorem Inv.load (h : Inv s) (rom : List Byte) : Inv (load rom s) := by
  obtain ⟨-, hsome, hfits, hload⟩ | ⟨answer, hload⟩ := load_cases s rom
  · rw [hload]
    exact (h.copyRom hsome hfits).emit _
  · rw [hload]
    exact h.emit (.loadResult answer)

theorem Inv.applyEvent {e : Event} {t : State} (h : Inv s) (hevent : applyEvent e s = .next t) : Inv t := by
  cases e with
  | step r => exact h.stepEvent hevent
  | tick => cases hevent; exact h.tick
  | keyUpdate k => cases hevent; exact h.keyUpdate k
  | halt => cases hevent; exact h.halt
  | load rom => cases hevent; exact h.load rom

end

/-- Settles O3: a step is one event, a cycle with the free random byte, or nothing, and each keeps the invariant. -/
theorem stepKeepsInvariant : Obligations.StepKeepsInvariant := by
  unfold Obligations.StepKeepsInvariant
  intro s t h hstep
  obtain ⟨e, rest, -, hanswer⟩ | ⟨-, hrunning, hanswer⟩ | ⟨-, -, hanswer⟩ := step_cases s
  · exact (h.setInputs rest).applyEvent (hanswer.symm.trans hstep)
  · have hlatched := (h.setDraws (s.draws + 1)).setRnd (Config.randomByte s.draws)
    exact hlatched.cycle hrunning (hanswer.symm.trans hstep)
  · cases hanswer.symm.trans hstep
    exact h

end Sys2Proof.Machine

/-! Calls and returns, register and index writes, memory transfers, and the faults they take (41_flow.md R111, R112, R117;
42_alu.md R130 to R135, R141; 43_index_memory.md; 20_memory.md R55). -/

namespace Sys2Proof.Machine

/-! ### Control flow -/

/-- Settles O16: the sum fits the 16 bits of `pc`. -/
theorem jumpOffsetSetsPc : Obligations.JumpOffsetSetsPc := by
  unfold Obligations.JumpOffsetSetsPc
  intro nnn s
  exact ⟨s.setPc (offsetTarget nnn (s.reg 0)), rfl, offsetTarget_toNat nnn _, s.setPc_onlyRegs [] _⟩

/-- Settles O17: the call writes one slot, `sp` and `pc`. -/
theorem callPushesReturnAddress : Obligations.CallPushesReturnAddress := by
  unfold Obligations.CallPushesReturnAddress
  intro nnn s hroom
  refine ⟨_, exec_call_of_room nnn hroom, addrOperand_toNat nnn, rfl, ?slots, ?frame⟩
  case slots => simp [Fin.ext_iff]
  case frame => simp [KeepsRegs, KeepsTimers, KeepsBytes, KeepsPixels, KeepsRun, KeepsHost]

/-- Settles O18: the return writes `sp` and `pc` and no slot. -/
theorem returnPopsAddress : Obligations.ReturnPopsAddress := by
  unfold Obligations.ReturnPopsAddress
  intro s hentry
  refine ⟨_, exec_ret_of_entry hentry, ?top, Nat.sub_add_cancel hentry, fun _ => rfl, ?frame⟩
  case top =>
    intro j hj
    have htop : (⟨s.sp.val - 1, by omega⟩ : Fin 16) = j := Fin.ext (by simp only; omega)
    simp [htop]
  case frame => simp [KeepsRegs, KeepsTimers, KeepsBytes, KeepsPixels, KeepsRun, KeepsHost]

/-- Settles O20: the return reads the slot the call wrote, which is the one above those in use before. -/
theorem callThenReturnRoundTrip : Obligations.CallThenReturnRoundTrip := by
  unfold Obligations.CallThenReturnRoundTrip
  intro nnn s hroom
  refine ⟨_, _, exec_call_of_room nnn hroom, exec_ret_of_entry (Nat.succ_pos _), ?_, rfl, ?slots, ?_⟩
  case slots =>
    intro j hj
    have hne : j ≠ ⟨s.sp.val, hroom⟩ := fun h => absurd (congrArg Fin.val h) (Nat.ne_of_lt hj)
    simp [hne]
  all_goals simp [KeepsRegs, KeepsRun]

/-! ### Registers and the index register -/

/-- Settles O22: each load writes one register and advances. -/
theorem registerLoadsCopy : Obligations.RegisterLoadsCopy := by
  unfold Obligations.RegisterLoadsCopy
  intro x y kk s
  exact ⟨⟨_, rfl, by simp, rfl, s.setReg_advance_onlyRegs x kk⟩,
    ⟨_, rfl, by simp, rfl, s.setReg_advance_onlyRegs x (s.reg y)⟩⟩

/-- Settles O24: each operation writes one register, and its bits are the operation on the bits. -/
theorem logicIsBitwise : Obligations.LogicIsBitwise := by
  unfold Obligations.LogicIsBitwise
  intro x y s
  refine ⟨?or, ?and, ?xor⟩
  case or => exact ⟨_, rfl, by simp, rfl, s.setReg_advance_onlyRegs x (s.reg x ||| s.reg y)⟩
  case and => exact ⟨_, rfl, by simp, rfl, s.setReg_advance_onlyRegs x (s.reg x &&& s.reg y)⟩
  case xor => exact ⟨_, rfl, by simp, rfl, s.setReg_advance_onlyRegs x (s.reg x ^^^ s.reg y)⟩

/-- Settles O28: the latched byte, masked, is written to one register. -/
theorem randomIsMaskedInput : Obligations.RandomIsMaskedInput := by
  unfold Obligations.RandomIsMaskedInput
  intro x kk r s
  exact ⟨_, rfl, by simp, rfl, (s.setRnd r).setReg_advance_onlyRegs x (r &&& kk)⟩

theorem indexSum_toNat (i : Word) (b : Byte) : (indexSum i b).toNat = (i.toNat + b.toNat) % 65536 := by
  rw [indexSum, BitVec.toNat_add, BitVec.toNat_setWidth_of_le (by decide)]

/-- With valid parameters the last glyph address is far below the 16 bits of `I` (log 11). -/
theorem glyphAddress_toNat {p : Config.Params} (hp : p.valid) (b : Byte) :
    (glyphAddress p b).toNat = p.fontBase + 5 * b.toNat := by
  obtain ⟨-, hfont, horigin, -, -⟩ := valid_bounds hp
  have hb : b.toNat < 256 := b.isLt
  rw [glyphAddress, BitVec.toNat_ofNat]
  omega

/-- Settles O30: both write `I` alone; the sum wraps, the glyph address does not reach the wrap. -/
theorem indexArithmeticSetsI : Obligations.IndexArithmeticSetsI := by
  unfold Obligations.IndexArithmeticSetsI
  intro x s
  refine ⟨?addI, fun hvalid => ?ldF⟩
  case addI => exact ⟨_, rfl, indexSum_toNat _ _, rfl, s.setI_advance_onlyIndex _⟩
  case ldF => exact ⟨_, rfl, glyphAddress_toNat hvalid _, rfl, s.setI_advance_onlyIndex _⟩

/-! ### Block transfers -/

section
variable (s : State) (a : Nat) (bs : List Byte)

/-- A stored byte reads back. -/
theorem State.storeBytes_readByte_add {k : Nat} (h : k < bs.length) :
    (s.storeBytes a bs).readByte (a + k) = bs[k] := by
  rw [State.storeBytes_readByte, dif_pos ⟨Nat.le_add_right a k, Nat.add_lt_add_left h a⟩]
  simp only [Nat.add_sub_cancel_left]

/-- A block store leaves every byte outside the block. -/
theorem State.storeBytes_keepsBytesOutside : KeepsBytesOutside a bs.length s (s.storeBytes a bs) := by
  intro b hb
  rw [State.storeBytes_readByte, dif_neg (by omega)]

/-- The frame of every instruction that stores a block and advances. -/
theorem State.storeBytes_advance_onlyBytes : OnlyBytes a bs.length s (s.storeBytes a bs).advance := by
  simpa [OnlyBytes, KeepsRegs, KeepsStack, KeepsTimers, KeepsPixels, KeepsRun, KeepsHost, KeepsBytesOutside] using
    s.storeBytes_keepsBytesOutside a bs

end

/-- A decimal digit fits its byte. -/
theorem toNat_ofNat_of_lt_byte {n : Nat} (h : n < 256) : (BitVec.ofNat 8 n).toNat = n := by
  rw [BitVec.toNat_ofNat]
  omega

/-- The three digits of a byte, each at its address (43_index_memory.md R153). -/
theorem storeDigits_readByte (s : State) (a : Nat) (b : Byte) :
    ((s.storeBytes a (decimalDigits b)).readByte a).toNat = b.toNat / 100 ∧
    ((s.storeBytes a (decimalDigits b)).readByte (a + 1)).toNat = b.toNat / 10 % 10 ∧
    ((s.storeBytes a (decimalDigits b)).readByte (a + 2)).toNat = b.toNat % 10 := by
  have hb : b.toNat < 256 := b.isLt
  have hbyte {k : Nat} (hk : k < 3) := congrArg BitVec.toNat (s.storeBytes_readByte_add a (decimalDigits b) (k := k) hk)
  exact ⟨(hbyte (k := 0) (by decide)).trans (toNat_ofNat_of_lt_byte (by omega)),
    (hbyte (k := 1) (by decide)).trans (toNat_ofNat_of_lt_byte (by omega)),
    (hbyte (k := 2) (by decide)).trans (toNat_ofNat_of_lt_byte (by omega))⟩

/-- Settles O31: the three bytes stored are the digits, which add up to the value by their weights. -/
theorem bcdStoresDigits : Obligations.BcdStoresDigits := by
  unfold Obligations.BcdStoresDigits
  intro x s hfits
  obtain ⟨hhundreds, htens, hones⟩ := storeDigits_readByte s s.i.toNat (s.reg x)
  refine ⟨_, exec_ldB_of_fits hfits, hhundreds, htens, hones, ?sum, by simp, s.storeBytes_advance_onlyBytes _ _⟩
  case sum =>
    simp only [State.indexAddress_eq, State.advance_eq, State.setPc_readByte, hhundreds, htens, hones]
    omega

/-- The `k`-th of the registers up to `x` is `V[k]`. -/
theorem regsUpTo_map_reg_getElem {x k : Reg} (s : State) (h : k.val < ((regsUpTo x).map s.reg).length) :
    ((regsUpTo x).map s.reg)[k.val] = s.reg k := by
  rw [List.getElem_map]
  exact congrArg s.reg (Fin.ext (regsUpTo_getElem x k.val _))

/-- The bytes of a register block store are the registers. -/
theorem storeRegs_readByte {x k : Reg} (s : State) (a : Nat) (h : k ≤ x) :
    (s.storeBytes a ((regsUpTo x).map s.reg)).readByte (a + k.val) = s.reg k := by
  have hk : k.val < ((regsUpTo x).map s.reg).length := by simpa using Nat.lt_succ_of_le h
  rw [s.storeBytes_readByte_add a _ hk, regsUpTo_map_reg_getElem]

/-- Settles O32: the block stored is that of the `x + 1` registers, in order. -/
theorem registerBlockStored : Obligations.RegisterBlockStored := by
  unfold Obligations.RegisterBlockStored
  intro x s hfits
  refine ⟨_, exec_ldMemVx_of_fits hfits, fun k hk => storeRegs_readByte s _ hk, by simp, ?frame⟩
  case frame => simpa using s.storeBytes_advance_onlyBytes s.i.toNat ((regsUpTo x).map s.reg)

/-- The frame of the instruction that loads a block of registers and advances. -/
theorem State.loadRegs_advance_onlyRegs (s : State) (a : Nat) (ks : List Reg) :
    OnlyRegs ks s (s.loadRegs a ks).advance := by
  have hregs : KeepsRegs ks s (s.loadRegs a ks).advance := by
    intro r hr
    simp [hr]
  exact ⟨hregs, by simp [KeepsStack, KeepsTimers, KeepsBytes, KeepsPixels, KeepsRun, KeepsHost]⟩

/-- Settles O33: every register up to `x` is read from its own byte. -/
theorem registerBlockLoaded : Obligations.RegisterBlockLoaded := by
  unfold Obligations.RegisterBlockLoaded
  intro x s hfits
  refine ⟨_, exec_ldVxMem_of_fits hfits, ?loaded, by simp, s.loadRegs_advance_onlyRegs _ _, fun _ => mem_regsUpTo x _⟩
  case loaded =>
    intro k hk
    simp [hk]

/-- Settles O34: the load reads at each address the register the store put there. -/
theorem blockStoreThenLoadRestores : Obligations.BlockStoreThenLoadRestores := by
  unfold Obligations.BlockStoreThenLoadRestores
  intro x s t u hfits hstore hi hbytes
  cases (exec_ldMemVx_of_fits hfits).symm.trans hstore
  have hui : u.i = s.i := by simpa using hi
  refine ⟨_, exec_ldVxMem_of_fits (by rw [hui]; exact hfits), fun k hk => ?_⟩
  have hbyte : u.readByte (s.i.toNat + k.val) = s.reg k := (hbytes k hk).trans (storeRegs_readByte s _ hk)
  simp [hk, hui, hbyte]

/-! ### Faults -/

/-- A fault writes its record and nothing else. -/
theorem State.raiseFault_onlyFaulted (s : State) (k : FaultKind) (w : Option Word) :
    OnlyFaulted ⟨k, s.pc, w⟩ s (s.raiseFault k w) := by
  have hback : (s.raiseFault k w).setPhase s.phase = s := rfl
  refine ⟨rfl, ?_, rfl, rfl, rfl⟩
  rw [hback]
  simp [OnlyRegs, KeepsRegs, KeepsStack, KeepsTimers, KeepsBytes, KeepsPixels, KeepsRun, KeepsHost]

/-- The one rule of the instructions' faults, with the instruction's own word written out. -/
theorem exec_faults {i : Instr} {s : State} {w : Word} (hduty : ¬ dutyOf i s) (hw : encode i = w) :
    ∃ t, exec i s = .next t ∧ OnlyFaulted ⟨faultOf i, s.pc, some w⟩ s t :=
  ⟨_, exec_of_broken_duty hduty, hw ▸ s.raiseFault_onlyFaulted _ _⟩

theorem encode_call (nnn : Addr) : encode (.call nnn) = BitVec.ofNat 16 (0x2000 + nnn.toNat) := by
  have hsum : (encode (.call nnn)).toNat = 0x2000 + nnn.toNat := toNat_encAddr 0x2 nnn
  rw [← hsum, BitVec.ofNat_toNat, BitVec.setWidth_eq]

/-- Settles O19: with 16 entries, and with none, the duty of the instruction is broken. -/
theorem stackFaultsAreTaken : Obligations.StackFaultsAreTaken := by
  unfold Obligations.StackFaultsAreTaken
  refine ⟨fun nnn s hfull => exec_faults (i := .call nnn) ?_ (encode_call nnn), fun s hempty => exec_faults (i := .ret) ?_ rfl⟩
  · simp [dutyOf, hfull]
  · simp [dutyOf, hempty]

/-- The words of family F as numbers (30_encoding.md R71). -/
theorem encXkk_familyF (x : Reg) (kk : Byte) : encXkk 0xF x kk = BitVec.ofNat 16 (0xF000 + kk.toNat + 256 * x.val) := by
  have hsum : 0xF * 4096 + x.val * 256 + kk.toNat = 0xF000 + kk.toNat + 256 * x.val := by omega
  exact (encXkk_eq_ofNat 0xF x kk).trans (congrArg (BitVec.ofNat 16) hsum)

theorem encode_drw (x y : Reg) {n : Nat} (hn : n < 16) :
    encode (.drw x y n) = BitVec.ofNat 16 (0xD000 + 256 * x.val + 16 * y.val + n) := by
  have hrows : (BitVec.ofNat 4 n).toNat = n := by
    rw [BitVec.toNat_ofNat]
    omega
  have hsum : (encode (.drw x y n)).toNat = 0xD000 + 256 * x.val + 16 * y.val + n := by
    have hword := toNat_encXyn 0xD (BitVec.ofNat 4 n) x y
    rw [hrows] at hword
    calc (encode (.drw x y n)).toNat = 0xD * 4096 + x.val * 256 + y.val * 16 + n := hword
      _ = 0xD000 + 256 * x.val + 16 * y.val + n := by omega
  rw [← hsum, BitVec.ofNat_toNat, BitVec.setWidth_eq]

/-- Settles O35: an access that reaches 4096 breaks the duty of the instruction. -/
theorem dataAccessOutOfBoundsFaults : Obligations.DataAccessOutOfBoundsFaults := by
  unfold Obligations.DataAccessOutOfBoundsFaults
  intro x y n s
  refine ⟨fun h => ?ldB, fun h => ?ldMemVx, fun h => ?ldVxMem, fun hpos hn h => ?drw⟩
  case ldB => exact exec_faults (i := .ldB x) (by simp [dutyOf, h]) (encXkk_familyF x 0x33)
  case ldMemVx => exact exec_faults (i := .ldMemVx x) (by simp [dutyOf, h]) (encXkk_familyF x 0x55)
  case ldVxMem => exact exec_faults (i := .ldVxMem x) (by simp [dutyOf, h]) (encXkk_familyF x 0x65)
  case drw => exact exec_faults (i := .drw x y n) (by simp only [dutyOf]; omega) (encode_drw x y hn)

end Sys2Proof.Machine

/-! The draw: its pixels, its collision flag, and a second draw of the same sprite (44_display.md R171 to R176). -/

namespace Sys2Proof.Machine

/-! ### One draw -/

theorem flagByte_eq_one_iff (b : Bool) : flagByte b = 1 ↔ b = true := by
  cases b <;> decide

theorem flagByte_eq_zero_iff (b : Bool) : flagByte b = 0 ↔ b = false := by
  cases b <;> decide

/-- The frame of the instruction that replaces the framebuffer, writes VF and advances. -/
theorem State.setFb_setReg_advance_frame (s : State) (g : Framebuffer) (b : Byte) :
    let t := ((s.setFb g).setReg VF b).advance
    KeepsRegs [VF] s t ∧ t.i = s.i ∧ KeepsStack s t ∧ KeepsTimers s t ∧ KeepsBytes s t ∧ KeepsRun s t ∧
      KeepsHost s t := by
  have hregs : KeepsRegs [VF] s ((s.setFb g).setReg VF b).advance := by
    intro r hr
    have hrf : r ≠ VF := fun h => hr (by simp [h])
    simp [hrf]
  exact ⟨hregs, by simp [KeepsStack, KeepsTimers, KeepsBytes, KeepsRun, KeepsHost]⟩

section
variable {x y : Reg} {n : Nat} {s t : State}

/-- A draw that fits inverts each pixel once per cell that falls on it. -/
theorem pixel_of_exec_drw (hfits : n = 0 ∨ s.i.toNat + n ≤ 4096) (hexec : exec (.drw x y n) s = .next t) (p : Pixel) :
    t.pixel p = (s.pixel p ^^ decide ((spriteCells x y n s).count p % 2 = 1)) := by
  cases (exec_drw_of_fits hfits).symm.trans hexec
  exact test_drawPixels s.fb p (spriteCells x y n s)

/-- A draw that fits leaves its collision in VF. -/
theorem reg_VF_of_exec_drw (hfits : n = 0 ∨ s.i.toNat + n ≤ 4096) (hexec : exec (.drw x y n) s = .next t) :
    t.reg VF = flagByte (drawnSprite x y n s).2 := by
  cases (exec_drw_of_fits hfits).symm.trans hexec
  simp

end

/-- Settles O37: the pixels are those of the inversions in order, which is each pixel's parity. -/
theorem drawInvertsSpriteCells : Obligations.DrawInvertsSpriteCells := by
  unfold Obligations.DrawInvertsSpriteCells
  intro x y n s hfits
  have hexec := exec_drw_of_fits (x := x) (y := y) hfits
  exact ⟨_, hexec, pixel_of_exec_drw hfits hexec, by simp, s.setFb_setReg_advance_frame _ _⟩

/-- Settles O38: VF is the collision of the inversions, one of which met a pixel that the earlier ones had left on. -/
theorem drawCollisionInOrder : Obligations.DrawCollisionInOrder := by
  unfold Obligations.DrawCollisionInOrder
  intro x y n s t hfits hexec
  rw [reg_VF_of_exec_drw hfits hexec, flagByte_eq_one_iff, flagByte_eq_zero_iff]
  exact ⟨Bool.eq_false_or_eq_true _, collision_drawPixels s.fb (spriteCells x y n s)⟩

/-! ### Without self-overlap -/

section
variable (x y : Reg) (n : Nat) (s : State)

/-- Some cell of a sprite is some bit of 1 of some row. -/
theorem exists_mem_spriteCells (P : Pixel → Prop) : (∃ p ∈ spriteCells x y n s, P p) ↔
    ∃ r j, r < n ∧ j < 8 ∧ (s.readByte (s.indexAddress + r)).getLsbD (7 - j) = true ∧
      P (((s.reg x).toNat + j) % s.params.fbWidth, ((s.reg y).toNat + r) % s.params.fbHeight) := by
  simp only [spriteCells, List.mem_flatMap, List.mem_map, List.mem_filter, List.mem_range]
  constructor
  · rintro ⟨_, ⟨r, hr, j, ⟨hj, hbit⟩, rfl⟩, hP⟩
    exact ⟨r, j, hr, hj, hbit, hP⟩
  · rintro ⟨r, j, hr, hj, hbit, hP⟩
    exact ⟨_, ⟨r, hr, j, ⟨hj, hbit⟩, rfl⟩, hP⟩

/-- Two offsets below the size of an axis wrap to one coordinate only if they are equal. -/
theorem eq_of_add_mod_eq {a j k m : Nat} (hj : j < m) (hk : k < m) (h : (a + j) % m = (a + k) % m) : j = k :=
  (Nat.ModEq.add_left_cancel' a h).eq_of_lt_of_lt hj hk

/-- On a grid at least 8 wide and `n` high no two bits of a sprite fall on one cell (44_display.md R174). -/
theorem spriteCells_nodup (hwide : 8 ≤ s.params.fbWidth) (hhigh : n ≤ s.params.fbHeight) :
    (spriteCells x y n s).Nodup := by
  refine List.nodup_flatMap.mpr ⟨fun r _ => ?row, ?rows⟩
  case row =>
    refine List.Nodup.map_on (fun j hj k hk hcell => ?_) (List.nodup_range.filter _)
    have hj8 : j < 8 := List.mem_range.mp (List.mem_of_mem_filter hj)
    have hk8 : k < 8 := List.mem_range.mp (List.mem_of_mem_filter hk)
    exact eq_of_add_mod_eq (hj8.trans_le hwide) (hk8.trans_le hwide) (Prod.ext_iff.mp hcell).1
  case rows =>
    refine List.Pairwise.imp_of_mem (fun {r q} hr hq hne => ?_) List.nodup_range
    have hrn : r < n := List.mem_range.mp hr
    have hqn : q < n := List.mem_range.mp hq
    intro p hpr hpq
    obtain ⟨_, -, rfl⟩ := List.mem_map.mp hpr
    obtain ⟨_, -, hcell⟩ := List.mem_map.mp hpq
    exact hne (eq_of_add_mod_eq (hrn.trans_le hhigh) (hqn.trans_le hhigh) (Prod.ext_iff.mp hcell).2.symm)

end

/-- Without self-overlap VF is 1 exactly when some cell was on before the draw. -/
theorem reg_VF_of_exec_drw_nodup {x y : Reg} {n : Nat} {s t : State} (hfits : n = 0 ∨ s.i.toNat + n ≤ 4096)
    (hexec : exec (.drw x y n) s = .next t) (hnodup : (spriteCells x y n s).Nodup) :
    t.reg VF = 1 ↔ ∃ p ∈ spriteCells x y n s, s.pixel p = true := by
  rw [reg_VF_of_exec_drw hfits hexec, flagByte_eq_one_iff]
  exact collision_drawPixels_of_nodup s.fb _ hnodup

/-- Settles O39: with all cells different, no inversion of a draw is met by a later one. -/
theorem drawCollisionWithoutOverlap : Obligations.DrawCollisionWithoutOverlap := by
  unfold Obligations.DrawCollisionWithoutOverlap
  intro x y n s t hfits hwide hhigh hexec
  rw [reg_VF_of_exec_drw_nodup hfits hexec (spriteCells_nodup x y n s hwide hhigh), exists_mem_spriteCells]

/-! ### The second draw -/

/-- The cells of a draw depend on the coordinates, the grid and the sprite's bytes only. -/
theorem spriteCells_congr {x y : Reg} {n : Nat} {s u : State} (hparams : u.params = s.params) (hi : u.i = s.i)
    (hx : u.reg x = s.reg x) (hy : u.reg y = s.reg y)
    (hbytes : ∀ k, k < n → u.readByte (s.indexAddress + k) = s.readByte (s.indexAddress + k)) :
    spriteCells x y n u = spriteCells x y n s := by
  refine List.flatMap_congr fun r hr => ?_
  have hbyte := hbytes r (List.mem_range.mp hr)
  simp only [State.indexAddress_eq] at hbyte ⊢
  rw [hparams, hi, hx, hy, hbyte]

/-- Settles O40: both draws invert the same cells, so the pixels come back; without self-overlap each cell is inverted once by
the first draw, so the second meets those that were off. -/
theorem doubleDrawRestoresScreen : Obligations.DoubleDrawRestoresScreen := by
  unfold Obligations.DoubleDrawRestoresScreen
  intro x y n s t u hfits hfirst hparams hi hx hy hpixels hbytes
  have hcells := spriteCells_congr hparams hi hx hy hbytes
  have hufits : n = 0 ∨ u.i.toNat + n ≤ 4096 := by rw [hi]; exact hfits
  have hsecond := exec_drw_of_fits (x := x) (y := y) hufits
  have hupixel (p : Pixel) : u.pixel p = (s.pixel p ^^ decide ((spriteCells x y n s).count p % 2 = 1)) :=
    (hpixels p).trans (pixel_of_exec_drw hfits hfirst p)
  refine ⟨_, hsecond, ?restored, fun hwide hhigh => ?flags⟩
  case restored =>
    intro p
    rw [pixel_of_exec_drw hufits hsecond, hcells, hupixel, Bool.xor_assoc, Bool.xor_self, Bool.xor_false]
  case flags =>
    have hnodup := spriteCells_nodup x y n s hwide hhigh
    have hoff (p : Pixel) (hp : p ∈ spriteCells x y n s) : u.pixel p = !s.pixel p := by
      simp [hupixel, List.count_eq_one_of_mem hnodup hp]
    have hflag := reg_VF_of_exec_drw_nodup hufits hsecond (hcells ▸ hnodup)
    have hmet : (∃ p ∈ spriteCells x y n u, u.pixel p = true) ↔ ∃ p ∈ spriteCells x y n s, s.pixel p = false := by
      rw [hcells]
      refine exists_congr fun p => and_congr_right fun hp => ?_
      rw [hoff p hp, Bool.not_eq_true']
    have hsecondFlag := hflag.trans hmet
    refine ⟨hsecondFlag.trans (exists_mem_spriteCells x y n s _), fun hclear => hsecondFlag.trans ?_⟩
    have hnone : ¬ ∃ p ∈ spriteCells x y n s, s.pixel p = true := by
      rw [← reg_VF_of_exec_drw_nodup hfits hfirst hnodup, hclear]
      decide
    have hall : (∃ p ∈ spriteCells x y n s, s.pixel p = false) ↔ ∃ p ∈ spriteCells x y n s, True := by
      refine exists_congr fun p => and_congr_right fun hp => ?_
      simpa using fun hon => hnone ⟨p, hp, hon⟩
    simpa using hall.trans (exists_mem_spriteCells x y n s fun _ => True)

end Sys2Proof.Machine

/-! Creation, the cycle and the events, one at a time (10_state.md R45; 40_cycle.md; 45_keypad.md R185; 60_exceptions.md;
70_reset_and_hazards.md R243). -/

namespace Sys2Proof.Machine

/-! ### Creation -/

/-- The memory of a new block inside the font table (10_state.md R31). -/
theorem initial_in_font {p : Config.Params} (hp : p.valid) {a : Nat} (hlow : p.fontBase ≤ a)
    (hhigh : a < p.fontBase + 80) : p.fontData[a - p.fontBase]? = some (Memory.initial p a) := by
  obtain ⟨hsize, -⟩ := valid_bounds hp
  have hindex : a - p.fontBase < p.fontData.length := by omega
  rw [Memory.initial, if_pos hlow, List.getD_eq_getElem _ _ hindex, List.getElem?_eq_getElem hindex]

/-- The memory of a new block outside it. -/
theorem initial_outside_font {p : Config.Params} (hp : p.valid) {a : Nat}
    (h : a < p.fontBase ∨ p.fontBase + 80 ≤ a) : Memory.initial p a = 0 := by
  obtain ⟨hsize, -⟩ := valid_bounds hp
  unfold Memory.initial
  split
  · exact List.getD_eq_default _ _ (by omega)
  · rfl

/-- Settles O1: the fields are those of the creation, and an unwritten byte reads as the initial contents. -/
theorem creationLeavesResetValues : Obligations.CreationLeavesResetValues := by
  unfold Obligations.CreationLeavesResetValues
  intro p hp
  obtain ⟨-, -, horigin, -, -⟩ := valid_bounds hp
  have haddress : (BitVec.ofNat 16 p.loadOrigin).toNat = p.loadOrigin := toNat_ofNat_of_le_memSize (by omega)
  obtain ⟨hregs, hi, -, hslots, hsp, hdt, hst, -, -, -⟩ := State.create_phaseFits p
  exact ⟨hregs, hi, haddress, hslots, hsp, hdt, hst, fun _ hlow hhigh => initial_in_font hp hlow hhigh,
    fun _ houtside => initial_outside_font hp houtside, Framebuffer.test_nil, rfl, haddress, rfl⟩

/-! ### The cycle -/

theorem exec_answers_next (i : Instr) (s : State) : ∃ t, exec i s = .next t := by
  have hends := exec_ends i s
  generalize exec i s = answer at hends ⊢
  cases hends <;> exact ⟨_, rfl⟩

theorem cycle_answers_next (s : State) : ∃ t, cycle s = .next t := by
  obtain ⟨-, hanswer⟩ | ⟨w, -, -, hanswer⟩ | ⟨w, i, -, -, hanswer⟩ := cycle_cases s
  · exact ⟨_, hanswer⟩
  · exact ⟨_, hanswer⟩
  · exact hanswer ▸ exec_answers_next i s

theorem applyEvent_answers_next (e : Event) (s : State) : ∃ t, applyEvent e s = .next t := by
  cases e with
  | step r =>
    by_cases hrunning : s.phase = .running
    · obtain ⟨t, hcycle⟩ := cycle_answers_next (s.setRnd r)
      exact ⟨t, (stepEvent_running r s hrunning).trans hcycle⟩
    · exact ⟨s, stepEvent_idle r s hrunning⟩
  | _ => exact ⟨_, rfl⟩

theorem step_answers_next (s : State) : ∃ t, step s = .next t := by
  obtain ⟨e, rest, -, hanswer⟩ | ⟨-, -, hanswer⟩ | ⟨-, -, hanswer⟩ := step_cases s
  · exact hanswer ▸ applyEvent_answers_next e _
  · exact hanswer ▸ cycle_answers_next _
  · exact ⟨s, hanswer⟩

/-- Settles O4: no event, and no cycle, ends in a host fault or a refusal. -/
theorem everyStepAnswersNext : Obligations.EveryStepAnswersNext := by
  unfold Obligations.EveryStepAnswersNext
  exact step_answers_next

theorem cycle_of_decoded {s : State} {w : Word} {i : Instr} (hfetch : s.fetchWord = some w)
    (hdecode : decodeWord w = .ok i) : cycle s = exec i s := by
  simp only [cycle, hfetch, hdecode]

/-- Settles O5: latching a byte and counting a draw touch neither `pc` nor memory, so the cycle decodes the same word. -/
theorem stepRunsDecodedInstruction : Obligations.StepRunsDecodedInstruction := by
  unfold Obligations.StepRunsDecodedInstruction
  intro s i hrunning hpc hdecode
  have hfetch := fetchWord_of_lt s hpc
  have hword := (decode_pair_eq_ok_iff _ _ i).mp hdecode
  refine ⟨fun r rest => ?listed, fun hinputs => ⟨Config.randomByte s.draws, ?free⟩⟩
  case listed =>
    calc step (s.setInputs (.step r :: rest)) = cycle ((s.setInputs rest).setRnd r) :=
          stepEvent_running r (s.setInputs rest) hrunning
      _ = exec i ((s.setInputs rest).setRnd r) := cycle_of_decoded hfetch hword
  case free =>
    obtain ⟨e, rest, hlisted, -⟩ | ⟨-, -, hanswer⟩ | ⟨-, hidle, -⟩ := step_cases s
    · rw [hinputs] at hlisted
      cases hlisted
    · exact hanswer.trans (cycle_of_decoded hfetch hword)
    · exact absurd hrunning hidle

/-- Settles O6: the two rules of the `Step` event. -/
theorem stepActsOnlyWhenRunning : Obligations.StepActsOnlyWhenRunning := by
  unfold Obligations.StepActsOnlyWhenRunning
  exact fun s r => ⟨stepEvent_idle r s, stepEvent_running r s⟩

theorem cycle_of_no_word {s : State} (h : s.fetchWord = none) :
    cycle s = .next (s.raiseFault .fetchOutOfBounds none) := by
  simp only [cycle, h]

/-- Settles O7: from 4095 on the fetch reads no word, and the cycle is the fault alone. -/
theorem fetchOutOfBoundsFaults : Obligations.FetchOutOfBoundsFaults := by
  unfold Obligations.FetchOutOfBoundsFaults
  intro s r hrunning hpc
  have hfetch : (s.setRnd r).fetchWord = none := (fetchWord_eq_none_iff _).mpr hpc
  exact ⟨_, (stepEvent_running r s hrunning).trans (cycle_of_no_word hfetch), (s.setRnd r).raiseFault_onlyFaulted _ _⟩

/-- Settles O8: the word of the fetch is that of its two bytes, the first one high. -/
theorem fetchIsBigEndian : Obligations.FetchIsBigEndian := by
  unfold Obligations.FetchIsBigEndian
  exact fun s hpc => ⟨_, fetchWord_of_lt s hpc, toNat_wordOfBytes _ _⟩

/-! ### The keypad update -/

/-- The lowest newly pressed key (45_keypad.md R185). -/
theorem lowestKey_pressEdges_eq_some_iff (old new : Keypad) (e : Key) :
    lowestKey (pressEdges old new) = some e ↔
      (new.getLsbD e.val = true ∧ old.getLsbD e.val = false) ∧
        ∀ j : Key, j < e → ¬ (new.getLsbD j.val = true ∧ old.getLsbD j.val = false) := by
  simp only [lowestKey_eq_some_iff, getLsbD_pressEdges]
  simp

theorem lowestKey_pressEdges_eq_none_iff (old new : Keypad) :
    lowestKey (pressEdges old new) = none ↔
      ∀ j : Key, ¬ (new.getLsbD j.val = true ∧ old.getLsbD j.val = false) := by
  simp only [lowestKey_eq_none_iff, getLsbD_pressEdges]
  simp

/-- A key's number fits its register. -/
theorem toNat_ofNat_key (e : Key) : (BitVec.ofNat 8 e.val).toNat = e.val := toNat_ofNat_of_lt_byte (by omega)

@[simp] theorem completeWait_reg (x : Reg) (e : Key) (s : State) :
    (completeWait x e s).reg x = BitVec.ofNat 8 e.val := by
  simp [completeWait]

/-- The frame of the end of a wait. -/
theorem completeWait_setKey_frame (x : Reg) (e : Key) (u : Keypad) (s : State) :
    let t := (completeWait x e s).setKey u
    KeepsRegs [x] s t ∧ t.i = s.i ∧ KeepsStack s t ∧ KeepsTimers s t ∧ KeepsBytes s t ∧ KeepsPixels s t ∧
      KeepsHost (s.setKey u) t := by
  have hregs : KeepsRegs [x] s ((completeWait x e s).setKey u) := (s.setReg_advance_onlyRegs x _).1
  exact ⟨hregs, by simp [completeWait, KeepsStack, KeepsTimers, KeepsBytes, KeepsPixels, KeepsHost]⟩

/-- Settles O43: the lowest edge ends the wait, then the vector is committed. -/
theorem lowestEdgeCompletesWait : Obligations.LowestEdgeCompletesWait := by
  unfold Obligations.LowestEdgeCompletesWait
  intro x e u s hwaits hedge hlower
  have hlowest : lowestKey (pressEdges s.key u) = some e :=
    (lowestKey_pressEdges_eq_some_iff _ _ _).mpr ⟨hedge, hlower⟩
  have hupdate : keyUpdate u s = (completeWait x e s).setKey u := by
    rw [keyUpdate_of_awaitingKey u hwaits, hlowest]
    rfl
  refine ⟨_, congrArg Host.Outcome.next hupdate, ?key, rfl, rfl, rfl, rfl, completeWait_setKey_frame x e u s⟩
  case key => rw [State.setKey_reg, completeWait_reg, toNat_ofNat_key]

/-- The frame of the commit of a key vector. -/
theorem State.setKey_frame (s : State) (u : Keypad) :
    KeepsRegs [] s (s.setKey u) ∧ (s.setKey u).i = s.i ∧ KeepsStack s (s.setKey u) ∧ KeepsTimers s (s.setKey u) ∧
      KeepsBytes s (s.setKey u) ∧ KeepsPixels s (s.setKey u) ∧ KeepsRun s (s.setKey u) ∧
      KeepsHost (s.setKey u) (s.setKey u) := by
  simp [KeepsRegs, KeepsStack, KeepsTimers, KeepsBytes, KeepsPixels, KeepsRun, KeepsHost]

/-- Settles O44: without a wait to end, the update is the commit. -/
theorem otherKeyUpdatesOnlyCommit : Obligations.OtherKeyUpdatesOnlyCommit := by
  unfold Obligations.OtherKeyUpdatesOnlyCommit
  refine fun u s => ⟨fun hphase => ?commits, fun hended => congrArg Host.Outcome.next (keyUpdate_of_ended u hended)⟩
  case commits =>
    have hupdate : keyUpdate u s = s.setKey u := by
      obtain hunloaded | hrunning | ⟨x, hwaits, hnone⟩ := hphase
      · exact keyUpdate_of_no_wait u (.inl hunloaded)
      · exact keyUpdate_of_no_wait u (.inr hrunning)
      · rw [keyUpdate_of_awaitingKey u hwaits, (lowestKey_pressEdges_eq_none_iff _ _).mpr hnone]
        rfl
    exact ⟨_, congrArg Host.Outcome.next hupdate, rfl, rfl, s.setKey_frame u⟩

theorem State.not_ended_of_awaitingKey {s : State} {x : Reg} (h : s.phase = .awaitingKey x) : s.ended = false := by
  simp only [State.ended, h]

/-- Settles O46: of the events in a wait, only `Halt` and the edge of a key update write the phase. -/
theorem onlyEdgeOrHaltEndsWait : Obligations.OnlyEdgeOrHaltEndsWait := by
  unfold Obligations.OnlyEdgeOrHaltEndsWait
  intro x e s t hwaits hevent hleft
  have hnotEnded := State.not_ended_of_awaitingKey hwaits
  cases e with
  | step r =>
    cases (stepEvent_idle r s (by simp [hwaits])).symm.trans hevent
    exact absurd hwaits hleft
  | tick =>
    cases hevent
    rw [tick_eq, hnotEnded] at hleft
    exact absurd hwaits hleft
  | halt =>
    cases hevent
    rw [halt_eq, hnotEnded]
    exact .inl ⟨rfl, rfl⟩
  | load rom =>
    cases hevent
    rw [load_of_loaded rom (by simp [hwaits])] at hleft
    exact absurd hwaits hleft
  | keyUpdate u =>
    cases hevent
    obtain ⟨hended, -⟩ | ⟨-, hupdate⟩ | ⟨x', e, hwaits', hlowest, hupdate⟩ := keyUpdate_cases s u
    · rw [hnotEnded] at hended
      cases hended
    · rw [hupdate] at hleft
      exact absurd hwaits hleft
    · cases hwaits.symm.trans hwaits'
      obtain ⟨⟨hdown, hup⟩, -⟩ := (lowestKey_pressEdges_eq_some_iff _ _ _).mp hlowest
      refine .inr ⟨u, rfl, by rw [hupdate]; rfl, e, hdown, hup, ?key⟩
      case key => rw [hupdate, State.setKey_reg, completeWait_reg, toNat_ofNat_key]

/-! ### The tick and the halt -/

theorem timerAfterTick_toNat (b : Byte) : (timerAfterTick b).toNat = b.toNat - 1 := by
  have hb : b.toNat < 256 := b.isLt
  have hone : (1 : Byte).toNat = 1 := rfl
  have hzero : (0 : Byte).toNat = 0 := rfl
  unfold timerAfterTick
  split
  · rw [BitVec.toNat_sub]
    omega
  · omega

theorem tick_of_not_ended {s : State} (h : s.ended = false) : tick s = tickApplied s := by
  rw [tick_eq, h]
  rfl

/-- The frame of a tick that applies. -/
theorem tickApplied_frame (s : State) :
    KeepsRegs [] s (tickApplied s) ∧ (tickApplied s).i = s.i ∧ KeepsStack s (tickApplied s) ∧
      KeepsBytes s (tickApplied s) ∧ KeepsPixels s (tickApplied s) ∧ KeepsHost s (tickApplied s) := by
  simp [tickApplied, KeepsRegs, KeepsStack, KeepsBytes, KeepsPixels, KeepsHost]

/-- Settles O48: a tick that applies counts both timers down and emits the framebuffer. -/
theorem tickDecrementsAndEmitsFrame : Obligations.TickDecrementsAndEmitsFrame := by
  unfold Obligations.TickDecrementsAndEmitsFrame
  refine fun s => ⟨fun hrun => ⟨_, congrArg Host.Outcome.next (tick_of_not_ended hrun), timerAfterTick_toNat s.dt,
    timerAfterTick_toNat s.st, rfl, rfl, rfl, rfl, tickApplied_frame s⟩, fun hended => congrArg Host.Outcome.next ?_⟩
  rw [tick_eq, hended]
  rfl

/-- Settles O50: the halt is a change of phase. -/
theorem haltStopsTheBlock : Obligations.HaltStopsTheBlock := by
  unfold Obligations.HaltStopsTheBlock
  refine fun s => ⟨fun hrun => ⟨s.setPhase .halted, congrArg Host.Outcome.next ?_, rfl, rfl, rfl, s.setPhase_frame _⟩,
    fun hended => congrArg Host.Outcome.next ?_⟩
  · rw [halt_eq, hrun]
    rfl
  · rw [halt_eq, hended]
    rfl

/-! ### The load -/

/-- Settles O53: the three failing branches of the load. -/
theorem failedLoadsChangeNothing : Obligations.FailedLoadsChangeNothing := by
  unfold Obligations.FailedLoadsChangeNothing
  exact fun rom s => ⟨fun hunloaded hempty => congrArg Host.Outcome.next (load_empty rom hunloaded hempty),
    fun hunloaded hsome hlarge => congrArg Host.Outcome.next (load_too_large rom hunloaded hsome hlarge),
    fun hloaded => congrArg Host.Outcome.next (load_of_loaded rom hloaded)⟩

/-- The frame of the copy of a ROM, memory aside. -/
theorem copyRom_emit_frame (rom : List Byte) (s : State) (o : Output) :
    let t := (copyRom rom s).emit o
    t.pc = s.pc ∧ KeepsRegs [] s t ∧ t.i = s.i ∧ KeepsStack s t ∧ KeepsTimers s t ∧ KeepsPixels s t ∧
      KeepsHost (s.setLoadEnd t.loadEnd) t := by
  simp [copyRom, KeepsRegs, KeepsStack, KeepsTimers, KeepsPixels, KeepsHost]

/-- Settles O52: the copy is a block store at `LOAD_ORIGIN`, and the end of the ROM is exact since it lies inside memory. -/
theorem loadCopiesRom : Obligations.LoadCopiesRom := by
  unfold Obligations.LoadCopiesRom
  intro rom s hunloaded hsome hfits
  have hload := load_fits rom hunloaded hsome.ne' (Nat.not_lt.mpr hfits)
  have hout : ((copyRom rom s).emit (.loadResult .ok)).outputs = s.outputs ++ [.loadResult .ok] := by
    simp [copyRom]
  exact ⟨_, congrArg Host.Outcome.next hload, fun k hk => s.storeBytes_readByte_add _ rom hk, s.storeBytes_keepsBytesOutside _ rom,
    toNat_ofNat_of_le_memSize (by omega), rfl, hout, copyRom_emit_frame rom s _⟩

end Sys2Proof.Machine

/-! Runs of many steps: held keys, ticks in a row, and ended machines (45_keypad.md R186; 60_exceptions.md R213, R231). -/

namespace Sys2Proof.Machine

/-! ### The one induction over a run -/

theorem run_succ {s s' : State} (k : Nat) (h : step s = .next s') :
    Host.Core.run core (k + 1) s = Host.Core.run core k s' := by
  have hcore : core.step s = .next s' := h
  simp only [Host.Core.run, hcore]

theorem run_answers_next (n : Nat) (s : State) : ∃ t, Host.Core.run core n s = .next t := by
  induction n generalizing s with
  | zero => exact ⟨s, rfl⟩
  | succ k ih =>
    obtain ⟨s', hs'⟩ := step_answers_next s
    rw [run_succ k hs']
    exact ih s'

/-- Where one step takes what is said of `k + 1` steps to go to what is said of `k`, a run takes it to the end. -/
theorem run_induction {P : Nat → State → Prop} (hstep : ∀ k s t, P (k + 1) s → step s = .next t → P k t) {n : Nat}
    {s t : State} (hs : P n s) (hrun : Host.Core.run core n s = .next t) : P 0 t := by
  induction n generalizing s with
  | zero =>
    cases hrun
    exact hs
  | succ k ih =>
    obtain ⟨s', hs'⟩ := step_answers_next s
    exact ih (hstep k s s' hs hs') ((run_succ k hs').symm.trans hrun)

/-- One step on a listed event. -/
theorem step_of_inputs {s : State} {e : Event} {rest : List Event} (h : s.inputs = e :: rest) :
    step s = applyEvent e (s.setInputs rest) := by
  simp only [step, nextEvent, h]

/-! ### A held key -/

@[simp] theorem keyUpdate_inputs (k : Keypad) (s : State) : (keyUpdate k s).inputs = s.inputs := by
  obtain ⟨-, h⟩ | ⟨-, h⟩ | ⟨x, e, -, -, h⟩ := keyUpdate_cases s k <;> rw [h] <;> rfl

/-- Key `i` is held, and the wait on `x` goes on or has ended with another key. -/
def HeldAndNotTaken (x : Reg) (i : Key) (s : State) : Prop :=
  s.key.getLsbD i.val = true ∧ (s.phase = .awaitingKey x ∨ (s.phase = .running ∧ (s.reg x).toNat ≠ i.val))

/-- A held key makes no edge, so an update that holds it still does not complete the wait with it (45_keypad.md R186). -/
theorem keyUpdate_keeps_heldAndNotTaken {x : Reg} {i : Key} {u : Keypad} {s : State} (h : HeldAndNotTaken x i s)
    (hu : u.getLsbD i.val = true) : HeldAndNotTaken x i (keyUpdate u s) := by
  obtain ⟨hheld, hphase⟩ := h
  obtain ⟨hended, -⟩ | ⟨-, hupdate⟩ | ⟨x', e, hwaits, hlowest, hupdate⟩ := keyUpdate_cases s u
  · obtain hwaits | ⟨hrunning, -⟩ := hphase
    · rw [State.not_ended_of_awaitingKey hwaits] at hended
      cases hended
    · simp [State.ended, hrunning] at hended
  · rw [hupdate]
    exact ⟨hu, hphase⟩
  · obtain ⟨⟨-, hup⟩, -⟩ := (lowestKey_pressEdges_eq_some_iff _ _ _).mp hlowest
    have hne : e.val ≠ i.val := by
      intro heq
      rw [heq, hheld] at hup
      cases hup
    obtain hwaits' | ⟨hrunning, -⟩ := hphase
    · cases hwaits.symm.trans hwaits'
      rw [hupdate]
      refine ⟨hu, .inr ⟨rfl, ?_⟩⟩
      rwa [State.setKey_reg, completeWait_reg, toNat_ofNat_key]
    · rw [hrunning] at hwaits
      cases hwaits

/-- The next `k` inputs are key updates, all of which hold key `i`. -/
def HeldUpdatesAhead (i : Key) (k : Nat) (s : State) : Prop :=
  ∃ us : List Keypad, us.length = k ∧ s.inputs = us.map .keyUpdate ∧ ∀ u ∈ us, u.getLsbD i.val = true

theorem step_of_heldUpdatesAhead {x : Reg} {i : Key} {k : Nat} {s t : State}
    (h : HeldAndNotTaken x i s ∧ HeldUpdatesAhead i (k + 1) s) (hstep : step s = .next t) :
    HeldAndNotTaken x i t ∧ HeldUpdatesAhead i k t := by
  obtain ⟨hs, us, hlength, hinputs, hus⟩ := h
  obtain ⟨u, rest, rfl⟩ := List.exists_cons_of_length_eq_add_one hlength
  cases (step_of_inputs hinputs).symm.trans hstep
  have hused : HeldAndNotTaken x i (s.setInputs (rest.map .keyUpdate)) := hs
  exact ⟨keyUpdate_keeps_heldAndNotTaken hused (hus u List.mem_cons_self),
    rest, Nat.succ.inj hlength, keyUpdate_inputs _ _, fun v hv => hus v (List.mem_cons_of_mem u hv)⟩

/-- Settles O45: each of the updates still listed holds the key, so every step of the run keeps it from being taken. -/
theorem heldKeyNeverCompletesWait : Obligations.HeldKeyNeverCompletesWait := by
  unfold Obligations.HeldKeyNeverCompletesWait
  intro x i us s t hwaits hheld hus hrun
  have hstart : HeldAndNotTaken x i (s.setInputs (us.map .keyUpdate)) ∧
      HeldUpdatesAhead i us.length (s.setInputs (us.map .keyUpdate)) :=
    ⟨⟨hheld, .inl hwaits⟩, us, rfl, rfl, hus⟩
  obtain ⟨⟨-, hphase⟩, -⟩ :=
    run_induction (P := fun k s => HeldAndNotTaken x i s ∧ HeldUpdatesAhead i k s)
      (fun _ _ _ => step_of_heldUpdatesAhead) hstart hrun
  exact hphase

/-! ### Ticks in a row -/

/-- The machine runs, its next `k` inputs are ticks, and they will leave the timers at `d` and `e`. -/
def TicksAhead (d e k : Nat) (s : State) : Prop :=
  s.ended = false ∧ s.inputs = List.replicate k .tick ∧ s.dt.toNat - k = d ∧ s.st.toNat - k = e

theorem step_of_ticksAhead {d e k : Nat} {s t : State} (h : TicksAhead d e (k + 1) s) (hstep : step s = .next t) :
    TicksAhead d e k t := by
  obtain ⟨hrun, hinputs, hdt, hst⟩ := h
  have hnotEnded : (s.setInputs (List.replicate k .tick)).ended = false := hrun
  have hanswer : step s = .next (tickApplied (s.setInputs (List.replicate k .tick))) :=
    (step_of_inputs hinputs).trans (congrArg Host.Outcome.next (tick_of_not_ended hnotEnded))
  cases hanswer.symm.trans hstep
  refine ⟨hrun, rfl, ?dt, ?st⟩
  case dt =>
    rw [← hdt]
    exact (congrArg (· - k) (timerAfterTick_toNat s.dt)).trans (by omega)
  case st =>
    rw [← hst]
    exact (congrArg (· - k) (timerAfterTick_toNat s.st)).trans (by omega)

/-- Settles O49: each tick takes one from what the timers still have to count down. -/
theorem ticksCountDownToZero : Obligations.TicksCountDownToZero := by
  unfold Obligations.TicksCountDownToZero
  intro n s hrun
  obtain ⟨t, ht⟩ := run_answers_next n (s.setInputs (List.replicate n .tick))
  have hstart : TicksAhead (s.dt.toNat - n) (s.st.toNat - n) n (s.setInputs (List.replicate n .tick)) :=
    ⟨hrun, rfl, rfl, rfl⟩
  obtain ⟨-, -, hdt, hst⟩ := run_induction (fun _ _ _ => step_of_ticksAhead) hstart ht
  exact ⟨t, ht, hdt, hst⟩

/-! ### Ended machines -/

/-- The state `t` is `s` with some inputs used and some answers to refused loads added. -/
def EndedAs (s t : State) : Prop :=
  ∃ es answers, t = { s with inputs := es, outputs := s.outputs ++ answers } ∧
    ∀ o ∈ answers, o = .loadResult .loadNotAllowed

section
variable {s t : State}

theorem EndedAs.ended (hs : s.ended = true) (h : EndedAs s t) : t.ended = true := by
  obtain ⟨es, answers, rfl, -⟩ := h
  exact hs

theorem EndedAs.setInputs (h : EndedAs s t) (rest : List Event) : EndedAs s (t.setInputs rest) := by
  obtain ⟨es, answers, rfl, hanswers⟩ := h
  exact ⟨rest, answers, rfl, hanswers⟩

theorem EndedAs.emit_loadNotAllowed (h : EndedAs s t) : EndedAs s (t.emit (.loadResult .loadNotAllowed)) := by
  obtain ⟨es, answers, rfl, hanswers⟩ := h
  refine ⟨es, answers ++ [.loadResult .loadNotAllowed], ?_, ?_⟩
  · rw [State.emit, List.append_assoc]
  · simpa [or_imp, forall_and] using hanswers

end

/-- In an ended machine an event does nothing, or is a load and is refused (decisions D18 and D31 of the spec). -/
theorem applyEvent_of_ended (e : Event) {s : State} (h : s.ended = true) :
    applyEvent e s = .next s ∨ applyEvent e s = .next (s.emit (.loadResult .loadNotAllowed)) := by
  have hphase : s.phase ≠ .running ∧ s.phase ≠ .unloaded := by
    obtain hhalted | ⟨r, hfaulted⟩ := s.ended_iff.mp h
    · simp [hhalted]
    · simp [hfaulted]
  cases e with
  | step r => exact .inl (stepEvent_idle r s hphase.1)
  | tick => exact .inl (congrArg Host.Outcome.next (by rw [tick_eq, h]; rfl))
  | keyUpdate k => exact .inl (congrArg Host.Outcome.next (keyUpdate_of_ended k h))
  | halt => exact .inl (congrArg Host.Outcome.next (by rw [halt_eq, h]; rfl))
  | load rom => exact .inr (congrArg Host.Outcome.next (load_of_loaded rom hphase.2))

theorem step_keeps_endedAs {s t t' : State} (hs : s.ended = true) (h : EndedAs s t) (hstep : step t = .next t') :
    EndedAs s t' := by
  obtain ⟨e, rest, -, hevent⟩ | ⟨-, hrunning, -⟩ | ⟨-, -, hidle⟩ := step_cases t
  · have hused := h.setInputs rest
    obtain hsame | hrefused := applyEvent_of_ended e (hused.ended hs)
    · cases (hevent.trans hsame).symm.trans hstep
      exact hused
    · cases (hevent.trans hrefused).symm.trans hstep
      exact hused.emit_loadNotAllowed
  · have hended := h.ended hs
    simp [State.ended, hrunning] at hended
  · cases hidle.symm.trans hstep
    exact h

/-- Settles O51: every step of the run only uses inputs and adds answers to loads. -/
theorem endedRunNeverChanges : Obligations.EndedRunNeverChanges := by
  unfold Obligations.EndedRunNeverChanges
  intro n s t hended hrun
  have hstart : EndedAs s s := ⟨s.inputs, [], by simp, by simp⟩
  obtain ⟨es, answers, rfl, hanswers⟩ :=
    run_induction (P := fun _ t => EndedAs s t) (fun _ _ _ => step_keeps_endedAs hended) hstart hrun
  exact ⟨List.take_left, rfl, by simpa using hanswers⟩

end Sys2Proof.Machine

/-! The rules about every instruction: what it may write, when it faults, what it reports, and what it never reads
(10_state.md; 60_exceptions.md section 3; 70_reset_and_hazards.md R251). -/

namespace Sys2Proof.Machine

/-! ### Writers -/

/-- Settles O54: a fault writes the phase alone, and what an instruction that completes writes names it. -/
theorem onlyNamedInstructionsWrite : Obligations.OnlyNamedInstructionsWrite := by
  unfold Obligations.OnlyNamedInstructionsWrite
  intro i s t hexec
  by_cases hduty : dutyOf i s
  · cases exec_completes hduty hexec with
    | writesIndex a hi => simp [KeepsPixels, KeepsBytes, KeepsHost, hi]
    | stores bs hfits hi => simp [KeepsPixels, KeepsBytes, KeepsHost, hi]
    | _ => simp [KeepsPixels, KeepsBytes, KeepsHost]
  · cases (exec_of_broken_duty hduty).symm.trans hexec
    simp [KeepsPixels, KeepsBytes, KeepsHost]

/-- Settles O55: of the instructions that write registers, those that write one reach VF only by name, and the block load only
with `x = F`; the flag writers may. -/
theorem onlyFlagWritersWriteVF : Obligations.OnlyFlagWritersWriteVF := by
  unfold Obligations.OnlyFlagWritersWriteVF
  intro i s t hexec hVF
  by_cases hduty : dutyOf i s
  · cases exec_completes hduty hexec with
    | writesReg x b hi =>
      have hx : x = VF := by
        by_contra hne
        simp [Ne.symm hne] at hVF
      subst hx
      exact .inr (hi.imp_right (Or.imp_right .inl))
    | loadsRegs x =>
      have hx : x = VF := by
        by_contra hne
        have hbelow : ¬ VF ≤ x := fun hle => hne (le_antisymm (Fin.le_last x) hle)
        simp [hbelow] at hVF
      simp [hx]
    | writesFlagged x b f hi =>
      obtain ⟨y, hi⟩ := hi
      exact .inl ⟨x, y, by tauto⟩
    | draws x y n => exact .inl ⟨x, y, by simp⟩
    | _ => simp at hVF
  · cases (exec_of_broken_duty hduty).symm.trans hexec
    simp at hVF

/-! ### Faults and reports -/

theorem State.failed_of_running {s : State} (h : s.phase = .running) : s.failed = false := by
  simp only [State.failed, h]

theorem State.failed_of_awaitingKey {s : State} {x : Reg} (h : s.phase = .awaitingKey x) : s.failed = false := by
  simp only [State.failed, h]

theorem State.raiseFault_failed (s : State) (k : FaultKind) (w : Option Word) : (s.raiseFault k w).failed = true := rfl

/-- At most one output is new. -/
def EmitsAtMostOne (s t : State) : Prop := t.outputs = s.outputs ∨ ∃ o, t.outputs = s.outputs ++ [o]

/-- A completed instruction of a running machine has not failed, and only a key index is reported. -/
theorem Completes.reports {i : Instr} {s t : State} (h : Completes s i t) (hrunning : s.phase = .running) :
    t.failed = false ∧ EmitsAtMostOne s t := by
  cases h with
  | waits x => exact ⟨State.failed_of_awaitingKey rfl, .inl rfl⟩
  | notesKey b c =>
    refine ⟨State.failed_of_running (by simp [hrunning]), ?_⟩
    by_cases hb : b.toNat ≤ 15
    · exact .inl (by simp [hb])
    · exact .inr ⟨_, by rw [State.skipIf_eq, State.setPc_outputs, State.noteKeyIndex_outputs, if_neg hb]⟩
  | _ => exact ⟨State.failed_of_running (by simp [hrunning]), .inl (by simp)⟩

/-- The duties of a cycle are those of the fetched instruction, if there is one (70_reset_and_hazards.md R251). -/
theorem meetsDuties_iff {s : State} {w : Word} (hfetch : s.fetchWord = some w) :
    meetsDuties s ↔ ∀ i, decodeWord w = .ok i → dutyOf i s := by
  refine ⟨fun h i hdecode => h.2 w i hfetch hdecode, fun h => ⟨pc_le_of_fetchWord hfetch, fun w' i hfetch' => ?_⟩⟩
  cases hfetch.symm.trans hfetch'
  exact h i

theorem not_meetsDuties_of_no_word {s : State} (hfetch : s.fetchWord = none) : ¬ meetsDuties s := by
  rintro ⟨hpc, -⟩
  have hhigh := (fetchWord_eq_none_iff s).mp hfetch
  omega

/-- A cycle breaks a duty and faults with nothing reported, or it meets its duties and reports at most one anomaly. -/
theorem cycle_reports {s t : State} (hrunning : s.phase = .running) (hcycle : cycle s = .next t) :
    (¬ meetsDuties s ∧ t.failed = true ∧ t.outputs = s.outputs) ∨
    (meetsDuties s ∧ t.failed = false ∧ EmitsAtMostOne s t) := by
  obtain ⟨hfetch, hanswer⟩ | ⟨w, hfetch, herror, hanswer⟩ | ⟨w, i, hfetch, hdecode, hanswer⟩ := cycle_cases s
  · cases hanswer.symm.trans hcycle
    exact .inl ⟨not_meetsDuties_of_no_word hfetch, rfl, rfl⟩
  · cases hanswer.symm.trans hcycle
    have hphase := (execUnrecognized_phase w s).trans hrunning
    exact .inr ⟨(meetsDuties_iff hfetch).mpr (by simp [herror]), State.failed_of_running hphase,
      .inr ⟨_, execUnrecognized_outputs w s⟩⟩
  · have hduties : meetsDuties s ↔ dutyOf i s := (meetsDuties_iff hfetch).trans (by simp [hdecode])
    have hexec : exec i s = .next t := hanswer.symm.trans hcycle
    rw [hduties]
    by_cases hduty : dutyOf i s
    · exact .inr ⟨hduty, (exec_completes hduty hexec).reports hrunning⟩
    · cases (exec_of_broken_duty hduty).symm.trans hexec
      exact .inl ⟨hduty, rfl, rfl⟩

/-- The duties of a cycle do not depend on the latched byte. -/
theorem setRnd_meetsDuties (s : State) (r : Byte) : meetsDuties (s.setRnd r) ↔ meetsDuties s := by
  have hduty (i : Instr) : dutyOf i (s.setRnd r) ↔ dutyOf i s := by cases i <;> rfl
  simp only [meetsDuties, hduty, State.setRnd_pc, State.setRnd_fetchWord]

/-- A `Step` of a running machine, by its two ways to end. -/
theorem applyEvent_step_reports {s t : State} {r : Byte} (hrunning : s.phase = .running)
    (hstep : applyEvent (.step r) s = .next t) :
    (¬ meetsDuties s ∧ t.failed = true ∧ t.outputs = s.outputs) ∨
    (meetsDuties s ∧ t.failed = false ∧ EmitsAtMostOne s t) := by
  rw [← setRnd_meetsDuties s r]
  exact cycle_reports (s := s.setRnd r) hrunning ((stepEvent_running r s hrunning).symm.trans hstep)

/-- Settles O57: the cycle that faults is the one that breaks a duty. -/
theorem faultsExactlyWhenDutyBroken : Obligations.FaultsExactlyWhenDutyBroken := by
  unfold Obligations.FaultsExactlyWhenDutyBroken
  intro s t r hrunning hstep
  obtain ⟨hbroken, hfailed, -⟩ | ⟨hmet, hfailed, -⟩ := applyEvent_step_reports hrunning hstep
  · simp [hbroken, hfailed]
  · simp [hmet, hfailed]

/-- Settles O58: a fault is entered with nothing reported, and a cycle without one reports at most one anomaly. -/
theorem cycleReportsAtMostOnce : Obligations.CycleReportsAtMostOnce := by
  unfold Obligations.CycleReportsAtMostOnce
  intro s t r hrunning hstep
  obtain ⟨-, hreport⟩ | ⟨-, hreport⟩ := applyEvent_step_reports hrunning hstep
  · exact .inl hreport
  · exact .inr hreport

end Sys2Proof.Machine

/-! What no instruction reads: the output log, and, but for Cxkk, the random input (10_state.md R41, R42). -/

namespace Sys2Proof.Machine

/-- The state with another output log and another random input. -/
def State.withLog (s : State) (log : List Output) (r : Byte) : State := { s with outputs := log, rnd := r }

section
variable (s : State) (log : List Output) (r : Byte)

theorem State.withLog_storeBytes (a : Nat) (bs : List Byte) :
    (s.withLog log r).storeBytes a bs = (s.storeBytes a bs).withLog log r := by
  induction bs generalizing s a with
  | nil => rfl
  | cons b bs ih => exact ih (s.storeByte a b) (a + 1)

theorem State.withLog_loadRegs (a : Nat) (ks : List Reg) :
    (s.withLog log r).loadRegs a ks = (s.loadRegs a ks).withLog log r := by
  have hfold (t : State) : ks.foldl (fun t k => t.setReg k (s.readByte (a + k.val))) (t.withLog log r) =
      (ks.foldl (fun t k => t.setReg k (s.readByte (a + k.val))) t).withLog log r := by
    induction ks generalizing t with
    | nil => rfl
    | cons k rest ih => exact ih (t.setReg k (s.readByte (a + k.val)))
  exact hfold s

/-- The log of a key index goes to the end of whatever log there is. -/
theorem State.withLog_noteKeyIndex (i : Instr) (b : Byte) : (s.withLog log r).noteKeyIndex i b =
    (s.noteKeyIndex i b).withLog
      (log ++ if b.toNat ≤ 15 then [] else [.anomaly .keyIndexOutOfRange s.pc (encode i) (some b)]) r := by
  by_cases hb : b.toNat ≤ 15 <;> simp [State.noteKeyIndex, hb, State.withLog, State.emit]

end

/-- With any other log and random input, `i` makes the same of `s` and adds the same outputs. -/
def IgnoresLog (i : Instr) (s t : State) (log : List Output) (r : Byte) : Prop :=
  ∃ new, t.outputs = s.outputs ++ new ∧ exec i (s.withLog log r) = .next (t.withLog (log ++ new) r)

section
variable {i : Instr} {s t : State} {log : List Output} {r : Byte}

theorem ignoresLog_of_no_output (hquiet : t.outputs = s.outputs)
    (hexec : exec i (s.withLog log r) = .next (t.withLog log r)) : IgnoresLog i s t log r :=
  ⟨[], by simp [hquiet], by simp [hexec]⟩

/-- An instruction reads neither the log nor, but for Cxkk, the random input. -/
theorem exec_ignoresLog (hrandom : r = s.rnd ∨ ∀ x kk, i ≠ .rnd x kk) (hexec : exec i s = .next t) :
    IgnoresLog i s t log r := by
  by_cases hduty : dutyOf i s
  · cases i with
    | call nnn =>
      cases (exec_call_of_room nnn hduty).symm.trans hexec
      exact ignoresLog_of_no_output rfl (exec_call_of_room (s := s.withLog log r) nnn hduty)
    | ret =>
      cases (exec_ret_of_entry hduty).symm.trans hexec
      exact ignoresLog_of_no_output rfl (exec_ret_of_entry (s := s.withLog log r) hduty)
    | drw x y n =>
      cases (exec_drw_of_fits hduty).symm.trans hexec
      exact ignoresLog_of_no_output rfl (exec_drw_of_fits (s := s.withLog log r) hduty)
    | ldB x =>
      cases (exec_ldB_of_fits hduty).symm.trans hexec
      refine ignoresLog_of_no_output (by simp) ((exec_ldB_of_fits (s := s.withLog log r) hduty).trans ?_)
      rw [State.withLog_storeBytes]
      rfl
    | ldMemVx x =>
      cases (exec_ldMemVx_of_fits hduty).symm.trans hexec
      refine ignoresLog_of_no_output (by simp) ((exec_ldMemVx_of_fits (s := s.withLog log r) hduty).trans ?_)
      rw [State.withLog_storeBytes]
      rfl
    | ldVxMem x =>
      cases (exec_ldVxMem_of_fits hduty).symm.trans hexec
      refine ignoresLog_of_no_output (by simp) ((exec_ldVxMem_of_fits (s := s.withLog log r) hduty).trans ?_)
      rw [State.withLog_loadRegs]
      rfl
    | skp x | sknp x =>
      cases hexec
      refine ⟨_, State.noteKeyIndex_outputs s _ _, congrArg Host.Outcome.next ?_⟩
      rw [State.withLog_noteKeyIndex]
      rfl
    | rnd x kk =>
      obtain rfl | hother := hrandom
      · cases hexec
        exact ignoresLog_of_no_output rfl rfl
      · exact absurd rfl (hother x kk)
    | _ =>
      cases hexec
      exact ignoresLog_of_no_output rfl rfl
  · cases (exec_of_broken_duty hduty).symm.trans hexec
    have hbroken : ¬ dutyOf i (s.withLog log r) := by
      cases i <;> exact hduty
    exact ignoresLog_of_no_output rfl (exec_of_broken_duty hbroken)

end

/-- Settles O59: with the log left as it is, only the random input differs. -/
theorem onlyRndUsesRandomInput : Obligations.OnlyRndUsesRandomInput := by
  unfold Obligations.OnlyRndUsesRandomInput
  intro i s t r hother hexec
  obtain ⟨new, hout, hsame⟩ := exec_ignoresLog (log := s.outputs) (r := r) (.inr hother) hexec
  rw [← hout] at hsame
  exact hsame

/-- Settles O60: with the random input left as it is, only the log differs. -/
theorem outputLogIsNeverRead : Obligations.OutputLogIsNeverRead := by
  unfold Obligations.OutputLogIsNeverRead
  intro i s t log hexec
  obtain ⟨new, hout, hsame⟩ := exec_ignoresLog (log := log) (.inl rfl) hexec
  obtain ⟨-, -, -, -, -, -, -, hhost⟩ := onlyNamedInstructionsWrite i s t hexec
  obtain ⟨-, -, -, -, hrnd, -⟩ := hhost
  exact ⟨new, hout, hsame.trans (by rw [← hrnd]; rfl)⟩

end Sys2Proof.Machine
